-- ==== Sys2Proof/Word.lean ====
section
/-! DEFINITION. The word types of `bloom_filter_core` and the natural-number division the spec's notation names
(`00_scope.md` section 5). -/

namespace Sys2Proof

/-- One 64-bit quantity: a beat, a bit-store word, a hash value (`00_scope.md` R6: `W = BEAT = 64`). -/
abbrev Word := BitVec 64

/-- One byte of a key. -/
abbrev Byte := BitVec 8

/-- One transfer on the command or the response port (`30_encoding.md` R50, R51). -/
abbrev Beat := Word

/-- `ceil_div(a, b)`, over the naturals, with no 64-bit wrap (`00_scope.md` section 5, R33, R98). -/
def ceilDiv (a b : Nat) : Nat := (a + b - 1) / b

end Sys2Proof
end

