-- ==== Sys2Proof/Config.lean ====
section
/-! DEFINITION. What one instance of the block fixes (the OPEN parameters of `00_scope.md` R6) and the free values: what the
spec calls unspecified and a run may still meet. -/

namespace Sys2Proof

/-- The OPEN parameters of R6. They are arguments of the model: a state carries the instance it runs on (DESIGN CHOICE: log entry 1). -/
structure Config where
  /-- `M_MAX`: the largest `m` that `CFG` accepts. -/
  mMax : BitVec 64
  /-- `K_MAX`: the largest `k` that `CFG` accepts. -/
  kMax : BitVec 32
  /-- `KEY_MAX`: the largest key length in bytes. -/
  keyMax : BitVec 32
  deriving DecidableEq, Repr

namespace Config

/-- The legal ranges of R6; the upper bounds are the types' own. -/
abbrev wf (c : Config) : Prop := c.mMax ≠ 0 ∧ c.kMax ≠ 0

/-- The reference configuration of R6: 65536 / 255 / 4096. -/
def reference : Config := ⟨65536, 255, 4096⟩

/-- `NW_MAX = ceil_div(M_MAX, 64)` (R6): how many words the bit store has. -/
def nwMax (c : Config) : Nat := ceilDiv c.mMax.toNat 64

/-- FREE VALUE. What the bit-store word `w` holds while nothing has written it since the reset numbered `epoch`
(`10_state.md` R21, R27; `93_implementation_defined.md` V1, V2). Log entry 4. -/
opaque unwrittenWord : (epoch : Nat) → (w : Nat) → Word

/-- FREE VALUE. What `HP_PROBE` answers when it is asked to reduce the hash `h` modulo 0, which the spec leaves without a
value (`41_hash_probe_engine.md` R92, R97; `93_implementation_defined.md` U2). Log entry 5. -/
opaque probeModZero : (h : Word) → Word

/-- FREE VALUE. Beat `q` of `KEYBUF` where the request put none (`10_state.md` R25, R27; `93_implementation_defined.md` V3).
Log entry 6. -/
opaque staleKeyBeat : (q : Nat) → Beat

end Config
end Sys2Proof
end

