-- ==== Sys2Proof/Syntax.lean ====
section
/-! DEFINITION. The instructions: one constructor per row of `spec/opcode_table.json`, eight commands and six
micro-operations, with the operands of `30_encoding.md` R56, R65 and R66. -/

namespace Sys2Proof

/-- One instruction. A command carries the header's `RSV` field (and `ARG` where it must be zero), because the check of
those fields is the first line of the command's own pseudocode; `key` is the byte sequence the payload beats spell. -/
inductive Instr where
  /-- `NOP` (R110). -/
  | nop (rsv : BitVec 24) (arg : BitVec 32)
  /-- `CFG m, k` (R101): `m` from `X0`, `k` from `ARG`. -/
  | cfg (rsv : BitVec 24) (m : BitVec 64) (k : BitVec 32)
  /-- `ADD key` (R102). -/
  | add (rsv : BitVec 24) (key : List Byte)
  /-- `QRY key` (R103). -/
  | qry (rsv : BitVec 24) (key : List Byte)
  /-- `HASH seed, key` (R112). -/
  | hash (rsv : BitVec 24) (seed : BitVec 64) (key : List Byte)
  /-- `BGET pos` (R113). -/
  | bget (rsv : BitVec 24) (arg : BitVec 32) (pos : BitVec 64)
  /-- `RDW idx` (R114). -/
  | rdw (rsv : BitVec 24) (arg : BitVec 32) (idx : BitVec 64)
  /-- `STAT sel` (R111). -/
  | stat (rsv : BitVec 24) (sel : BitVec 32)
  /-- `BS_GET(pos)` on the request port of `bitstore_rdwr` (R83, R65). -/
  | bsGet (pos : BitVec 64)
  /-- `BS_SET(pos)` (R82, R65). -/
  | bsSet (pos : BitVec 64)
  /-- `BS_RDW(idx)` (R84, R65). -/
  | bsRdw (idx : BitVec 64)
  /-- `BS_CLEAR(n)` (R81, R65). -/
  | bsClear (n : BitVec 64)
  /-- `HP_HASH(data, seed)` on the request port of `hash_probe_engine` (R91, R66). -/
  | hpHash (seed : BitVec 64) (key : List Byte)
  /-- `HP_PROBE(data, i, m)` (R92, R66): `seed` is the 64-bit `hp_req_seed`, which the sequencer drives with `zext_64(i)`. -/
  | hpProbe (seed : BitVec 64) (m : BitVec 64) (key : List Byte)
  deriving DecidableEq, Repr

end Sys2Proof
end

