-- ==== Sys2Proof/WellFormed.lean ====
section
/-! DEFINITION. Which terms of `Instr` can be encoded, and which are legal spellings (`30_encoding.md` R59, the legal
headers of R58, and the operand ranges of R81, R91, R92). -/

namespace Sys2Proof

/-- The key length fits the 32-bit `ARG` or `key_len` field (R52, R66). -/
def keyFits (key : List Byte) : Bool := decide (key.length < 2 ^ 32)

/-- The term has an encoding. A term with `RSV ≠ 0` has one too: it spells an illegal header, which the block answers
(R59, R121). -/
def Instr.encodable : Instr → Bool
  | .nop _ _ => true
  | .cfg _ _ _ => true
  | .add _ key => keyFits key
  | .qry _ key => keyFits key
  | .hash _ _ key => keyFits key
  | .bget _ _ _ => true
  | .rdw _ _ _ => true
  | .stat _ _ => true
  | .bsGet _ => true
  | .bsSet _ => true
  | .bsRdw _ => true
  | .bsClear _ => true
  | .hpHash _ key => keyFits key
  | .hpProbe _ _ key => keyFits key

/-- The term is a legal spelling: `RSV = 0`; `ARG = 0` for `NOP`, `BGET`, `RDW`; `sel ≤ 7` (R59); the key length fits its
field; `BS_CLEAR` clears between 1 and `2^58` words, the largest `NW_MAX` (R81, R6); `HP_PROBE` is given a 32-bit probe index
and a modulus that is not 0 (R92). -/
def Instr.wf : Instr → Bool
  | .nop rsv arg => rsv == 0 && arg == 0
  | .cfg rsv _ _ => rsv == 0
  | .add rsv key => rsv == 0 && keyFits key
  | .qry rsv key => rsv == 0 && keyFits key
  | .hash rsv _ key => rsv == 0 && keyFits key
  | .bget rsv arg _ => rsv == 0 && arg == 0
  | .rdw rsv arg _ => rsv == 0 && arg == 0
  | .stat rsv sel => rsv == 0 && decide (sel.toNat ≤ 7)
  | .bsGet _ => true
  | .bsSet _ => true
  | .bsRdw _ => true
  | .bsClear n => decide (1 ≤ n.toNat) && decide (n.toNat ≤ 2 ^ 58)
  | .hpHash _ key => keyFits key
  | .hpProbe seed m key => decide (seed.toNat < 2 ^ 32) && m != 0 && keyFits key

end Sys2Proof
end

