-- ==== Sys2Proof/Decode.lean ====
section
/-! DEFINITION. Reading the three ports: the beats of the command port into command frames (`30_encoding.md` R52 to R59),
the request ports of the two sub-blocks into micro-operations (R65, R66); then the encoder, written from the same tables. -/

namespace Sys2Proof

/-! ## Byte order (R31, R55) -/

/-- `LEn(b0, …)`: the sum of `b_j · 2^(8j)` (`00_scope.md` section 5). -/
def leNat : List Byte → Nat
  | [] => 0
  | b :: bs => b.toNat + 256 * leNat bs

/-- `LE64` of eight bytes, or `LEn` of fewer: the bytes above the last are zero (R31). -/
def leWord (bs : List Byte) : Word := BitVec.ofNat 64 (leNat bs)

/-- Byte lane `j` of a beat: bits [8j+7 : 8j] (R55). -/
def laneOf (b : Beat) (j : Nat) : Byte := b.extractLsb' (8 * j) 8

/-- Key byte `j` is lane `j mod 8` of payload beat `P[j div 8]`; lanes past the key's end are not looked at (R55). -/
def keyBytes (len : Nat) (beats : List Beat) : List Byte :=
  (List.range len).map fun j => laneOf (beats.getD (j / 8) (Config.staleKeyBeat (j / 8))) (j % 8)

/-- Bytes `8q … 8q+7` of a key, fewer at its end. -/
def keySlice (key : List Byte) (q : Nat) : List Byte := (key.drop (8 * q)).take 8

/-- The payload beats of a key, the unused lanes of the last one zero, as the assembler writes them (R55, R63). -/
def packKey (key : List Byte) : List Beat :=
  (List.range (ceilDiv key.length 8)).map fun q => leWord (keySlice key q)

/-! ## The header beat (R52) and the opcode map (R58) -/

/-- `HDR[63:56]`. -/
def opcOf (hdr : Beat) : BitVec 8 := hdr.extractLsb' 56 8

/-- `HDR[55:32]`. -/
def rsvOf (hdr : Beat) : BitVec 24 := hdr.extractLsb' 32 24

/-- `HDR[31:0]`. -/
def argOf (hdr : Beat) : BitVec 32 := hdr.extractLsb' 0 32

/-- The assigned opcodes of R58. -/
inductive Opcode where
  | nop | cfg | add | qry | hash | bget | rdw | stat
  deriving DecidableEq, Repr

/-- The `OPC` byte of R58. -/
def Opcode.byte : Opcode → BitVec 8
  | .nop => 0x00
  | .cfg => 0x01
  | .add => 0x02
  | .qry => 0x03
  | .hash => 0x04
  | .bget => 0x05
  | .rdw => 0x06
  | .stat => 0x07

/-- The opcode a byte names; `none` for the unassigned `0x08 .. 0xFF` (R59). -/
def Opcode.ofByte (b : BitVec 8) : Option Opcode :=
  if b = 0x00 then some .nop
  else if b = 0x01 then some .cfg
  else if b = 0x02 then some .add
  else if b = 0x03 then some .qry
  else if b = 0x04 then some .hash
  else if b = 0x05 then some .bget
  else if b = 0x06 then some .rdw
  else if b = 0x07 then some .stat
  else none

/-- The four frame formats of R53. -/
inductive Format where
  | f0 | f1 | fp | f1p
  deriving DecidableEq, Repr

/-- The format is a function of `OPC` alone (R53). -/
def Opcode.format : Opcode → Format
  | .nop => .f0
  | .stat => .f0
  | .cfg => .f1
  | .bget => .f1
  | .rdw => .f1
  | .add => .fp
  | .qry => .fp
  | .hash => .f1p

/-- The number of beats of a format, header included, when `ARG` is `arg` (R53, R57). -/
def Format.beats (arg : BitVec 32) : Format → Nat
  | .f0 => 1
  | .f1 => 2
  | .fp => 1 + ceilDiv arg.toNat 8
  | .f1p => 2 + ceilDiv arg.toNat 8

/-- `frame_len(HDR)` (R57): it looks at `OPC` and `ARG` only; an unassigned opcode's frame is its header alone. -/
def frameLen (hdr : Beat) : Nat :=
  match Opcode.ofByte (opcOf hdr) with
  | some o => o.format.beats (argOf hdr)
  | none => 1

/-! ## Decoding -/

/-- The command a header and its `frame_len − 1` further beats spell (R56); `none` for an unassigned opcode. -/
def decodeFrame (hdr : Beat) (body : List Beat) : Option Instr :=
  let rsv := rsvOf hdr
  let arg := argOf hdr
  let x0 := body.headD 0
  match Opcode.ofByte (opcOf hdr) with
  | some .nop => some (.nop rsv arg)
  | some .cfg => some (.cfg rsv x0 arg)
  | some .add => some (.add rsv (keyBytes arg.toNat body))
  | some .qry => some (.qry rsv (keyBytes arg.toNat body))
  | some .hash => some (.hash rsv x0 (keyBytes arg.toNat body.tail))
  | some .bget => some (.bget rsv arg x0)
  | some .rdw => some (.rdw rsv arg x0)
  | some .stat => some (.stat rsv arg)
  | none => none

/-- What the front of a beat stream is. -/
inductive Decoded where
  /-- A whole frame of an assigned opcode, and the beats after it. -/
  | instr (i : Instr) (rest : List Beat)
  /-- A header with an unassigned opcode: a frame of one beat that spells no command (R57, R59). -/
  | unassigned (opc : BitVec 8) (rest : List Beat)
  /-- No beat, or fewer beats than `frame_len` (R152). -/
  | incomplete
  deriving DecidableEq, Repr

/-- Cut the first frame off a beat stream and read it (R57). -/
def decodeBeats : List Beat → Decoded
  | [] => .incomplete
  | hdr :: tail =>
    let n := frameLen hdr - 1
    if tail.length < n then .incomplete
    else
      match decodeFrame hdr (tail.take n) with
      | some i => .instr i (tail.drop n)
      | none => .unassigned (opcOf hdr) (tail.drop n)

/-- A request on the port of `bitstore_rdwr` (R65). `cfg_m` and `cfg_valid` are not part of it: they are `M` and `CFGD`. -/
structure BsReq where
  /-- `bs_req_op`. -/
  op : BitVec 2
  /-- `bs_req_arg`. -/
  arg : BitVec 64
  deriving DecidableEq, Repr

/-- A request on the port of `hash_probe_engine`, with the `KEYBUF` beats it reads (R66). -/
structure HpReq where
  /-- `hp_req_op`. -/
  op : BitVec 1
  /-- `hp_req_seed`. -/
  seed : BitVec 64
  /-- `hp_req_mod`; ignored for `HP_HASH`. -/
  modulus : BitVec 64
  /-- `key_len`. -/
  keyLen : BitVec 32
  /-- The beats `P[0], P[1], …` that `key_rd_data` shows at `key_rd_idx` 0, 1, …. -/
  keyBuf : List Beat
  deriving DecidableEq, Repr

/-- All four values of `bs_req_op` are assigned (R65). -/
def decodeBs (r : BsReq) : Instr :=
  if r.op = 0 then .bsGet r.arg
  else if r.op = 1 then .bsSet r.arg
  else if r.op = 2 then .bsRdw r.arg
  else .bsClear r.arg

/-- Both values of `hp_req_op` are assigned (R66). -/
def decodeHp (r : HpReq) : Instr :=
  if r.op = 0 then .hpHash r.seed (keyBytes r.keyLen.toNat r.keyBuf)
  else .hpProbe r.seed r.modulus (keyBytes r.keyLen.toNat r.keyBuf)

/-- What can stand on one of the three ports. -/
inductive Request where
  /-- Beats offered on the command port. -/
  | cmd (beats : List Beat)
  /-- A request on the port of `bitstore_rdwr`. -/
  | bs (r : BsReq)
  /-- A request on the port of `hash_probe_engine`. -/
  | hp (r : HpReq)
  deriving DecidableEq, Repr

/-- The decoder, total on whatever stands on a port. -/
def decode : Request → Decoded
  | .cmd beats => decodeBeats beats
  | .bs r => .instr (decodeBs r) []
  | .hp r => .instr (decodeHp r) []

/-! ## Encoding -/

/-- `HDR = OPC : RSV : ARG` (R52). -/
def header (o : Opcode) (rsv : BitVec 24) (arg : BitVec 32) : Beat := o.byte ++ rsv ++ arg

/-- `LEN` as the 32-bit field that carries it. -/
def lenField (key : List Byte) : BitVec 32 := BitVec.ofNat 32 key.length

/-- The words of an instruction: the beats of a command frame (R53, R56), or the signals of an internal request (R65, R66;
`hp_req_mod`, ignored for `HP_HASH`, is driven 0). DESIGN CHOICE: log entry 17. -/
def encode : Instr → Request
  | .nop rsv arg => .cmd [header .nop rsv arg]
  | .cfg rsv m k => .cmd [header .cfg rsv k, m]
  | .add rsv key => .cmd (header .add rsv (lenField key) :: packKey key)
  | .qry rsv key => .cmd (header .qry rsv (lenField key) :: packKey key)
  | .hash rsv seed key => .cmd (header .hash rsv (lenField key) :: seed :: packKey key)
  | .bget rsv arg pos => .cmd [header .bget rsv arg, pos]
  | .rdw rsv arg idx => .cmd [header .rdw rsv arg, idx]
  | .stat rsv sel => .cmd [header .stat rsv sel]
  | .bsGet pos => .bs ⟨0b00, pos⟩
  | .bsSet pos => .bs ⟨0b01, pos⟩
  | .bsRdw idx => .bs ⟨0b10, idx⟩
  | .bsClear n => .bs ⟨0b11, n⟩
  | .hpHash seed key => .hp ⟨0, seed, 0, lenField key, packKey key⟩
  | .hpProbe seed m key => .hp ⟨1, seed, m, lenField key, packKey key⟩

/-! ## The opcode table's words -/

/-- The beats of the frame whose bits, numbered from the header's bit 0, are the low `nbits` bits of `w`, zero above. -/
def tableBeats (nbits w : Nat) : List Beat :=
  (List.range (frameLen (BitVec.ofNat 64 (w % 2 ^ nbits)))).map fun i =>
    BitVec.ofNat 64 (w % 2 ^ nbits / 2 ^ (64 * i))

/-- Where a word of the opcode table stands: one bit is `hp_req_op`, two bits to one byte hold `bs_req_op`, anything longer
is a command frame; every other signal of the request is 0. In one whole byte the two ports' op codes collide: log entry 9. -/
def tableRequest (nbits w : Nat) : Request :=
  if nbits ≤ 1 then .hp ⟨BitVec.ofNat 1 w, 0, 0, 0, []⟩
  else if nbits ≤ 8 then .bs ⟨BitVec.ofNat 2 w, 0⟩
  else .cmd (tableBeats nbits w)

/-- The instruction the decoder reads from an opcode-table word; `none` where it reads none, or where the word has a bit
outside the op code it is to name. -/
def decodeTableWord (nbits w : Nat) : Option Instr :=
  if nbits ≤ 1 ∧ 2 ≤ w then none
  else if nbits ≤ 8 ∧ 4 ≤ w then none
  else
    match decode (tableRequest nbits w) with
    | .instr i _ => some i
    | .unassigned _ _ => none
    | .incomplete => none

end Sys2Proof
end

