-- ==== Sys2Proof/Machine/State.lean ====
section
/-! DEFINITION. The machine's state as plain data, the reasons a step can stop, and the state after reset
(`10_state.md` R10, R25, R27; `30_encoding.md` R51, R65, R66; `70_reset_and_hazards.md` R140). -/

namespace Sys2Proof.Machine

/-- The bit store `BITS[0 .. NW_MAX−1]` as the list of the words written since reset, word index and value, indices strictly
rising. The unit is the 64-bit word because no access is narrower or wider (`20_memory.md` R34). DEDUCED: log entry 3. -/
abbrev Memory := List (Nat × Word)

/-- The response side of the `bitstore_rdwr` port (R65). DESIGN CHOICE: log entry 14. -/
inductive BsRsp where
  /-- `bs_rsp_valid = 1`, `bs_rsp_fault = 0`, `bs_rsp_data = d`. -/
  | data (d : BitVec 64)
  /-- `bs_rsp_fault = 1`: the `BitRange` precondition failed and no access was made. The data then has no value. -/
  | bitRange
  deriving DecidableEq, Repr

/-- Everything the machine and the host's side of its ports hold between two steps. `KEYBUF` and the working registers of
R11 are dead between two steps (R25) and not here: log entry 15. -/
structure State where
  /-- `M` (R10, R18). -/
  m : BitVec 64
  /-- `K` (R10, R19). -/
  k : BitVec 32
  /-- `BITS` (R10, R21). -/
  bits : Memory
  /-- `CFGD` (R10, R13). -/
  cfgd : Bool
  /-- `FATAL` (R10, R13). -/
  fatal : Bool
  /-- `LASTERR` (R10, R17). -/
  lasterr : BitVec 8
  /-- `CAP_M`, `CAP_K`, `CAP_KEY` (R14, R20): the parameters of this instance, which no step changes (log entry 1). -/
  config : Config
  /-- Input `rst_n` (R51, R140). -/
  rstN : Bool
  /-- Input `rsp_ready` (R51, R154). -/
  rspReady : Bool
  /-- The command beats the host offers and the block has not taken, in order (`cmd_valid`, `cmd_data`; R51, R158). -/
  cmd : List Beat
  /-- The frame parser: the beats taken of a frame not yet whole; empty when it is idle (R25, R57, R152). -/
  rx : List Beat
  /-- The response port: the response beats not yet transferred, at most two (R25, R60, R154). -/
  rsp : List Beat
  /-- The response beats transferred so far, in order: what the host has seen (R3, R158). -/
  sent : List Beat
  /-- A request waiting on the port of `bitstore_rdwr` (R65). -/
  bsReq : Option BsReq
  /-- The last response on that port. -/
  bsRsp : Option BsRsp
  /-- A request waiting on the port of `hash_probe_engine` (R66). -/
  hpReq : Option HpReq
  /-- The last response on that port: `hp_rsp_data`. -/
  hpRsp : Option (BitVec 64)
  /-- THE MODEL'S OWN counter of resets: it indexes the free value of an unwritten word (log entry 4). -/
  epoch : Nat
  deriving DecidableEq, Repr

/-- Why the machine stops. -/
inductive Fault where
  /-- Raised by `step` in a state with `FATAL = 1` and `rst_n = 1`: the block has stopped and takes nothing until reset
  (R126). Safe: it is the stop the spec describes, and the state that holds `FATAL = 1` is a state of the run. -/
  | fatalStop
  /-- Raised by `BS_CLEAR(n)` on its own port with `n > NW_MAX`: words that do not exist (R81, R21). Safe: the spec gives
  such a request no effect, and no command makes it (log entry 7). -/
  | clearBeyondStore
  deriving DecidableEq, Repr

/-- Why the model gives no meaning. -/
inductive Refusal where
  /-- Raised by an arm of `exec` whose instruction has no meaning yet; no arm raises it now. Safe. -/
  | notModelled (mnemonic : String)
  deriving DecidableEq, Repr

/-- The state right after reset (R27, R140), of the reference configuration (R6), with nothing offered on a port, `rst_n`
released and the host ready to take responses. DESIGN CHOICE: log entries 1, 2, 4, 8 and 14. -/
def State.reset : State :=
  { m := 0
    k := 0
    bits := []
    cfgd := false
    fatal := false
    lasterr := 0
    config := Config.reference
    rstN := true
    rspReady := true
    cmd := []
    rx := []
    rsp := []
    sent := []
    bsReq := none
    bsRsp := none
    hpReq := none
    hpRsp := none
    epoch := 0 }

end Sys2Proof.Machine
end

