-- ==== Sys2Proof/Machine/Flags.lean ====
section
/-! DEFINITION. The response codes, the two status flags and the `STATUS` word (`10_state.md` R13, R17;
`60_exceptions.md` R120). -/

namespace Sys2Proof.Machine

/-- The codes of R120 that a response can carry. -/
inductive Code where
  | ok | illegal | cfg | cap | nocfg | range
  deriving DecidableEq, Repr

/-- The `CODE` byte (R120). -/
def codeByte : Code → BitVec 8
  | .ok => 0x00
  | .illegal => 0x01
  | .cfg => 0x02
  | .cap => 0x03
  | .nocfg => 0x04
  | .range => 0x05

/-- `LASTERR` records every code but `OK` (R17, R120, R128). -/
def lasterrAfter (c : Code) (old : BitVec 8) : BitVec 8 := if c = .ok then old else codeByte c

/-- `STATUS` (R17): `LASTERR` in bits [15:8], `CFGD` in bit 0, zeros elsewhere. -/
def statusWord (lasterr : BitVec 8) (cfgd : Bool) : Word := 0#48 ++ lasterr ++ 0#7 ++ BitVec.ofBool cfgd

/-- `zext_64` of a truth value (R61). -/
def boolWord (b : Bool) : Word := if b then 1 else 0

end Sys2Proof.Machine
end

