-- ==== Sys2Proof/Machine/Operands.lean ====
section
/-! DEFINITION. The position arithmetic of the bit store (`20_memory.md` R32, R33, R38; `41_hash_probe_engine.md` R98) and
the pieces of a key the hash reads (R31, R91). All of it is over the naturals, with no wrap. -/

namespace Sys2Proof.Machine

/-- The word a position lies in: `pos div 64` (R33). -/
def wordIndex (pos : Nat) : Nat := pos / 64

/-- Its bit number there, bit 0 the least significant: `pos mod 64` (R32, R33). -/
def bitOffset (pos : Nat) : Nat := pos % 64

/-- `1 << (pos mod 64)` (R32). -/
def bitMask (pos : Nat) : Word := (1 : Word) <<< bitOffset pos

/-- `ceil_div(m, 64)`: how many words a filter of `m` bits uses (R33). -/
def wordCount (m : BitVec 64) : Nat := ceilDiv m.toNat 64

/-- `NWORDS` (R20): a function of `M`, not separate state. -/
def State.nwords (s : State) : Nat := wordCount s.m

/-- Chunk `j`: eight key bytes as a little-endian word (R31). -/
def chunkAt (key : List Byte) (j : Nat) : Word := leWord (keySlice key j)

/-- The tail word: the `LEN mod 8` bytes after the last whole chunk, zero above (R31). -/
def tailWord (key : List Byte) : Word := leWord (key.drop (8 * (key.length / 8)))

end Sys2Proof.Machine
end

