-- ==== Sys2Proof/Machine/Ops.lean ====
section
/-! DEFINITION. The named operations every meaning and the step are written over: memory, the control registers, the
response, taking an error and the fatal fault, reset, and the ports. -/

namespace Sys2Proof.Machine

/-! ## The bit store's words (R21, R34, R39) -/

/-- The canonical form: word indices strictly rising. -/
abbrev Memory.wf (mem : Memory) : Prop := mem.Pairwise fun a b => a.1 < b.1

/-- The value last written to word `w`, if any. -/
def Memory.lookup : Memory → Nat → Option Word
  | [], _ => none
  | (a, x) :: rest, w => if a = w then some x else Memory.lookup rest w

/-- Write word `w`, keeping the indices rising. -/
def Memory.write : Memory → Nat → Word → Memory
  | [], w, v => [(w, v)]
  | (a, x) :: rest, w, v =>
    if w < a then (w, v) :: (a, x) :: rest
    else if w = a then (w, v) :: rest
    else (a, x) :: Memory.write rest w v

/-- `MemWrite(w, 1, 0)` for `w` in `0 .. n−1`, in ascending `w` (R81, R39). -/
def Memory.clear (mem : Memory) : Nat → Memory
  | 0 => mem
  | n + 1 => Memory.write (Memory.clear mem n) n 0

/-- `MemRead(w, 1)`: the latest write to the word; for a word not written since reset, an unspecified value (R39). -/
def State.memRead (s : State) (w : Nat) : Word :=
  (Memory.lookup s.bits w).getD (Config.unwrittenWord s.epoch w)

/-- `MemWrite(w, 1, v)` (R34). -/
def State.memWrite (s : State) (w : Nat) (v : Word) : State := { s with bits := Memory.write s.bits w v }

/-- The words `0 .. n−1` cleared (R81). -/
def State.memClear (s : State) (n : Nat) : State := { s with bits := Memory.clear s.bits n }

/-- Bit `pos` of the store, as R32 places it. -/
def State.bitAt (s : State) (pos : Nat) : Bool := (s.memRead (wordIndex pos)).getLsbD (bitOffset pos)

/-! ## The registers that `CFG` writes (R10, R15) -/

/-- `M <- m; K <- k`. -/
def State.setGeometry (s : State) (m : BitVec 64) (k : BitVec 32) : State := { s with m := m, k := k }

/-- `CFGD <- 1`. -/
def State.setCfgd (s : State) : State := { s with cfgd := true }

/-! ## Responses and errors (R60, R128) -/

/-- `RSP0 = OPC : CODE : 0` (R60). -/
def rsp0 (opc : BitVec 8) (c : Code) : Beat := opc ++ codeByte c ++ 0#48

/-- `respond(code, value)`: the two beats stand on the response port; on a code other than `OK` the value sent is 0 and
`LASTERR <- code` (`00_scope.md` section 5, R60, R128). -/
def State.respond (s : State) (opc : BitVec 8) (c : Code) (value : Word) : State :=
  { s with rsp := [rsp0 opc c, if c = .ok then value else 0], lasterr := lasterrAfter c s.lasterr }

/-- TAKING AN ERROR ("trap entry", R128): no effect of the command, `LASTERR <- CODE`, the response `RSP0 = OPC : CODE : 0`,
`RSP1 = 0`; control goes nowhere. There is no return (R129): the next frame runs normally. -/
def State.error (s : State) (opc : BitVec 8) (c : Code) : State := s.respond opc c 0

/-- THE FATAL FAULT `Fatal(BitRange, pos)` (R126): `FATAL <- 1`, no response, everything else kept. Only reset leaves it. -/
def State.raiseFatal (s : State) : State := { s with fatal := true }

/-- An unassigned opcode: the frame is the header alone, answered `ERR_ILLEGAL` with its own byte echoed (R59, R60, R121). -/
def State.execUnassigned (s : State) (opc : BitVec 8) : State := s.error opc .illegal

/-! ## Reset (R27, R140) -/

/-- What `rst_n = 0` does: every register of R10 at its reset value, the parser idle, the response port and the sub-block
ports empty, `BITS` unspecified anew. The host's side (the beats it still offers, its `rst_n` and `rsp_ready`, the beats it
has received) and the instance's parameters are not the block's to change. DESIGN CHOICE: log entry 13. -/
def State.applyReset (s : State) : State :=
  { m := 0
    k := 0
    bits := []
    cfgd := false
    fatal := false
    lasterr := 0
    config := s.config
    rstN := s.rstN
    rspReady := s.rspReady
    cmd := s.cmd
    rx := []
    rsp := []
    sent := s.sent
    bsReq := none
    bsRsp := none
    hpReq := none
    hpRsp := none
    epoch := s.epoch + 1 }

/-! ## The ports (R51, R65, R66) -/

/-- A whole frame is taken off the command port, `rest` is what the host still offers; the parser is idle again (R57). -/
def State.takeFrame (s : State) (rest : List Beat) : State := { s with rx := [], cmd := rest }

/-- The beats offered are taken, but the frame is not whole: the parser holds them and waits (R152). -/
def State.acceptBeats (s : State) : State := { s with rx := s.rx ++ s.cmd, cmd := [] }

/-- One response beat is transferred if the host is ready, else the block waits (R51, R154). -/
def State.transferBeat (s : State) : State :=
  if s.rspReady then { s with rsp := s.rsp.tail, sent := s.sent ++ s.rsp.take 1 } else s

/-- The `bitstore_rdwr` port answers. -/
def State.setBsRsp (s : State) (r : BsRsp) : State := { s with bsRsp := some r }

/-- The `hash_probe_engine` port answers. -/
def State.setHpRsp (s : State) (v : Word) : State := { s with hpRsp := some v }

/-- The request on the `bitstore_rdwr` port is taken. -/
def State.takeBsReq (s : State) : State := { s with bsReq := none }

/-- The request on the `hash_probe_engine` port is taken. -/
def State.takeHpReq (s : State) : State := { s with hpReq := none }

/-- Output `fatal_o` (R51, R13); 0 while the block is in reset (R140). -/
def State.fatalO (s : State) : Bool := s.rstN && s.fatal

/-- Output `rsp_valid` (R51); 0 in reset (R140) and in the fatal state (R126). -/
def State.rspValid (s : State) : Bool := s.rstN && !s.fatal && !s.rsp.isEmpty

/-- Output `rsp_data`, while `rsp_valid = 1`. -/
def State.rspData (s : State) : Option Beat := if s.rspValid then s.rsp.head? else none

/-- Output `cmd_ready` (R51): 0 in reset, while `FATAL = 1`, while an operation executes or its response is not yet fully
transferred; 1 when idle (R132) and inside an incomplete frame (R152). -/
def State.cmdReady (s : State) : Bool :=
  s.rstN && !s.fatal && s.rsp.isEmpty && s.bsReq.isNone && s.hpReq.isNone

/-- Input `cmd_valid` (R51). -/
def State.cmdValid (s : State) : Bool := !s.cmd.isEmpty

/-- The state in which `r` is the next thing a step takes: the block is out of reset, not fatal, idle, with `r` alone on its
port. -/
def State.withRequest (s : State) (r : Request) : State :=
  let t := { s with rstN := true, fatal := false, rx := [], rsp := [], cmd := [], bsReq := none, hpReq := none }
  match r with
  | .cmd beats => { t with cmd := beats }
  | .bs q => { t with bsReq := some q }
  | .hp q => { t with hpReq := some q }

end Sys2Proof.Machine
end

