-- ==== Sys2Proof/Machine/Bitstore.lean ====
section
/-! DEFINITION. `bitstore_rdwr` (`40_bitstore_rdwr.md`): its micro-operations as operations on the state, which the commands
use, and as requests on the block's own port (`30_encoding.md` R65). `none` is the `BitRange` precondition failing: no access
is made (R85). -/

namespace Sys2Proof.Machine

/-- The precondition of `BS_SET` and `BS_GET` (R82, R83). -/
def State.posInRange (s : State) (pos : Word) : Bool := s.cfgd && decide (pos.toNat < s.m.toNat)

/-- The precondition of `BS_RDW` (R84). -/
def State.idxInRange (s : State) (idx : Word) : Bool := s.cfgd && decide (idx.toNat < s.nwords)

/-- `BS_CLEAR(n)` (R81). -/
def bsClear (n : Nat) (s : State) : State := s.memClear n

/-- `BS_SET(pos)` (R82): one read and one write of the same word. -/
def bsSet (pos : Word) (s : State) : Option State :=
  if s.posInRange pos then
    some (s.memWrite (wordIndex pos.toNat) (s.memRead (wordIndex pos.toNat) ||| bitMask pos.toNat))
  else none

/-- `BS_GET(pos)` (R83). -/
def bsGet (pos : Word) (s : State) : Option Bool :=
  if s.posInRange pos then
    some (decide ((s.memRead (wordIndex pos.toNat) >>> bitOffset pos.toNat) &&& 1 = 1))
  else none

/-- `BS_RDW(idx)` (R84). -/
def bsRdw (idx : Word) (s : State) : Option Word :=
  if s.idxInRange idx then some (s.memRead idx.toNat) else none

/-- A request on the port failed its precondition: no access, `bs_rsp_fault = 1`, and the fatal fault (R85, R126). -/
def State.bitRangeFault (s : State) : State := (s.setBsRsp .bitRange).raiseFatal

/-- `BS_GET` on its own port: the bit in `bs_rsp_data[0]`, zeros above (R65). -/
def execBsGet (pos : BitVec 64) (s : State) : Host.Outcome State Fault Refusal :=
  match bsGet pos s with
  | some b => .next (s.setBsRsp (.data (boolWord b)))
  | none => .next s.bitRangeFault

/-- `BS_SET` on its own port: `bs_rsp_data` is 0 (R65). -/
def execBsSet (pos : BitVec 64) (s : State) : Host.Outcome State Fault Refusal :=
  match bsSet pos s with
  | some t => .next (t.setBsRsp (.data 0))
  | none => .next s.bitRangeFault

/-- `BS_RDW` on its own port: `bs_rsp_data` is the word (R65). -/
def execBsRdw (idx : BitVec 64) (s : State) : Host.Outcome State Fault Refusal :=
  match bsRdw idx s with
  | some v => .next (s.setBsRsp (.data v))
  | none => .next s.bitRangeFault

/-- `BS_CLEAR` on its own port: `bs_rsp_data` is 0 (R65). A count beyond `NW_MAX` names words that do not exist: the spec
gives it no effect (R81; log entry 7). -/
def execBsClear (n : BitVec 64) (s : State) : Host.Outcome State Fault Refusal :=
  if n.toNat ≤ s.config.nwMax then .next ((bsClear n.toNat s).setBsRsp (.data 0)) else .fault .clearBeyondStore

end Sys2Proof.Machine
end

