-- ==== Sys2Proof/Machine/HashProbe.lean ====
section
/-! DEFINITION. `hash_probe_engine` (`41_hash_probe_engine.md`): the seeded hash, the probe, and the meanings of
`HP_HASH` and `HP_PROBE`. Every quantity is an unsigned 64-bit word: products keep their low 64 bits, shifts are logical
(R96). -/

namespace Sys2Proof.Machine

/-- `MUL` (R6, R7, R91 step 1). -/
def hashMul : Word := 0xc6a4a7935bd1e995

/-- `h ^ (h >> RSH)`, `RSH = 47`. -/
def xorShift (h : Word) : Word := h ^^^ (h >>> 47)

/-- Step 2: `seed ^ (len(data) *64 MUL)`. -/
def hashInit (len : Nat) (seed : Word) : Word := seed ^^^ (BitVec.ofNat 64 len * hashMul)

/-- Step 3 for one chunk `c`. -/
def hashChunk (h c : Word) : Word := (h ^^^ (xorShift (c * hashMul) * hashMul)) * hashMul

/-- Step 3: the whole chunks in ascending order. -/
def hashChunks (data : List Byte) (h : Word) : Word :=
  (List.range (data.length / 8)).foldl (fun h j => hashChunk h (chunkAt data j)) h

/-- Step 4: only when 1 to 7 bytes remain. -/
def hashTail (data : List Byte) (h : Word) : Word :=
  if data.length % 8 = 0 then h else (h ^^^ tailWord data) * hashMul

/-- Step 5. -/
def hashFinish (h : Word) : Word := xorShift (xorShift h * hashMul)

/-- `HP_HASH(data, seed)` (R91): BF's `SeededHash`. -/
def hpHash (data : List Byte) (seed : Word) : Word :=
  hashFinish (hashTail data (hashChunks data (hashInit data.length seed)))

/-- The unsigned remainder of R97; what the spec leaves without a value, the reduction modulo 0, is free (R92). -/
def reduceMod (h m : Word) : Word := if m = 0 then Config.probeModZero h else h % m

/-- `HP_PROBE(data, i, m) = HP_HASH(data, zext_64(i)) mod m` (R92), `seed` the 64-bit `hp_req_seed`. -/
def hpProbe (data : List Byte) (seed m : Word) : Word := reduceMod (hpHash data seed) m

/-- The positions a key probes, for probe index `0, 1, …, k−1` (R92, R102, R103). -/
def probes (key : List Byte) (m : BitVec 64) (k : BitVec 32) : List Word :=
  (List.range k.toNat).map fun i => hpProbe key (BitVec.ofNat 64 i) m

/-- `HP_HASH` on its own port (R66, R91). The function is total: log entry 16. -/
def execHpHash (seed : BitVec 64) (key : List Byte) (s : State) : Host.Outcome State Fault Refusal :=
  .next (s.setHpRsp (hpHash key seed))

/-- `HP_PROBE` on its own port (R66, R92). -/
def execHpProbe (seed m : BitVec 64) (key : List Byte) (s : State) : Host.Outcome State Fault Refusal :=
  .next (s.setHpRsp (hpProbe key seed m))

end Sys2Proof.Machine
end

