-- ==== Sys2Proof/Machine/Filter.lean ====
section
/-! DEFINITION. The filter commands `CFG`, `ADD`, `QRY` (`42_bloom_filter_core.md`), their checks in the order of
`60_exceptions.md` R127. -/

namespace Sys2Proof.Machine

/-- `CFG m, k` (R101). The only command that clears a bit: R106 (f) begins here. -/
def execCfg (rsv : BitVec 24) (m : BitVec 64) (k : BitVec 32) (s : State) : Host.Outcome State Fault Refusal :=
  if rsv ≠ 0 then .next (s.error Opcode.cfg.byte .illegal)
  else if m = 0 ∨ k = 0 then .next (s.error Opcode.cfg.byte .cfg)
  else if s.config.mMax < m ∨ s.config.kMax < k then .next (s.error Opcode.cfg.byte .cap)
  else .next ((bsClear (wordCount m) (s.setGeometry m k)).setCfgd.respond Opcode.cfg.byte .ok 0)

/-- How the probe loop of `ADD` ends. -/
inductive SetLoop where
  /-- All positions set. -/
  | done (s : State)
  /-- A request's precondition failed: the state as it stood then, nothing accessed by that request (R126). -/
  | fatal (s : State)
  deriving DecidableEq, Repr

/-- The `BS_SET`s of one `ADD`, each on the state the one before left (R39, R151). -/
def setAll : List Word → State → SetLoop
  | [], s => .done s
  | p :: ps, s =>
    match bsSet p s with
    | some t => setAll ps t
    | none => .fatal s

/-- The `BS_GET`s of one `QRY`, up to and including the first that answers 0 (R39, R103); `none` when a precondition
failed. -/
def getAll : List Word → State → Option Bool
  | [], _ => some true
  | p :: ps, s =>
    match bsGet p s with
    | some true => getAll ps s
    | some false => some false
    | none => none

/-- `ADD key` (R102): it only sets bits, which gives R106 (a), (c), (d), (e), (g). The fatal branch answers nothing (R126); no run reaches it (R105). -/
def execAdd (rsv : BitVec 24) (key : List Byte) (s : State) : Host.Outcome State Fault Refusal :=
  if rsv ≠ 0 then .next (s.error Opcode.add.byte .illegal)
  else if s.cfgd = false then .next (s.error Opcode.add.byte .nocfg)
  else if s.config.keyMax.toNat < key.length then .next (s.error Opcode.add.byte .cap)
  else
    match setAll (probes key s.m s.k) s with
    | .done t => .next (t.respond Opcode.add.byte .ok 0)
    | .fatal t => .next t.raiseFatal

/-- `QRY key` (R103): it reads the bits that `ADD key` sets and changes none, which gives R106 (a), (b), (e). The fatal branch answers nothing (R126); no run reaches it (R105). -/
def execQry (rsv : BitVec 24) (key : List Byte) (s : State) : Host.Outcome State Fault Refusal :=
  if rsv ≠ 0 then .next (s.error Opcode.qry.byte .illegal)
  else if s.cfgd = false then .next (s.error Opcode.qry.byte .nocfg)
  else if s.config.keyMax.toNat < key.length then .next (s.error Opcode.qry.byte .cap)
  else
    match getAll (probes key s.m s.k) s with
    | some b => .next (s.respond Opcode.qry.byte .ok (boolWord b))
    | none => .next s.raiseFatal

end Sys2Proof.Machine
end

