-- ==== Sys2Proof/Machine/System.lean ====
section
/-! DEFINITION. The system and observation commands `NOP`, `STAT`, `HASH`, `BGET`, `RDW`
(`43_system_and_observation.md`), their checks in the order of `60_exceptions.md` R127. -/

namespace Sys2Proof.Machine

/-- `NOP` (R110). -/
def execNop (rsv : BitVec 24) (arg : BitVec 32) (s : State) : Host.Outcome State Fault Refusal :=
  if rsv ≠ 0 ∨ arg ≠ 0 then .next (s.error Opcode.nop.byte .illegal)
  else .next (s.respond Opcode.nop.byte .ok 0)

/-- The control register of a selector (R14, R111); `none` above 7. -/
def statRead (sel : BitVec 32) (s : State) : Option Word :=
  if sel = 0 then some 0x424C4D4600000001
  else if sel = 1 then some (statusWord s.lasterr s.cfgd)
  else if sel = 2 then some s.m
  else if sel = 3 then some (s.k.zeroExtend 64)
  else if sel = 4 then some (BitVec.ofNat 64 s.nwords)
  else if sel = 5 then some s.config.mMax
  else if sel = 6 then some (s.config.kMax.zeroExtend 64)
  else if sel = 7 then some (s.config.keyMax.zeroExtend 64)
  else none

/-- `STAT sel` (R111). -/
def execStat (rsv : BitVec 24) (sel : BitVec 32) (s : State) : Host.Outcome State Fault Refusal :=
  if rsv ≠ 0 then .next (s.error Opcode.stat.byte .illegal)
  else
    match statRead sel s with
    | some v => .next (s.respond Opcode.stat.byte .ok v)
    | none => .next (s.error Opcode.stat.byte .illegal)

/-- `HASH seed, key` (R112). -/
def execHash (rsv : BitVec 24) (seed : BitVec 64) (key : List Byte) (s : State) : Host.Outcome State Fault Refusal :=
  if rsv ≠ 0 then .next (s.error Opcode.hash.byte .illegal)
  else if s.config.keyMax.toNat < key.length then .next (s.error Opcode.hash.byte .cap)
  else .next (s.respond Opcode.hash.byte .ok (hpHash key seed))

/-- `BGET pos` (R113): the range check precedes the request, so its fatal branch is never taken. -/
def execBget (rsv : BitVec 24) (arg : BitVec 32) (pos : BitVec 64) (s : State) : Host.Outcome State Fault Refusal :=
  if rsv ≠ 0 ∨ arg ≠ 0 then .next (s.error Opcode.bget.byte .illegal)
  else if s.cfgd = false then .next (s.error Opcode.bget.byte .nocfg)
  else if s.m ≤ pos then .next (s.error Opcode.bget.byte .range)
  else
    match bsGet pos s with
    | some b => .next (s.respond Opcode.bget.byte .ok (boolWord b))
    | none => .next s.raiseFatal

/-- `RDW idx` (R114): the range check precedes the request, so its fatal branch is never taken. -/
def execRdw (rsv : BitVec 24) (arg : BitVec 32) (idx : BitVec 64) (s : State) : Host.Outcome State Fault Refusal :=
  if rsv ≠ 0 ∨ arg ≠ 0 then .next (s.error Opcode.rdw.byte .illegal)
  else if s.cfgd = false then .next (s.error Opcode.rdw.byte .nocfg)
  else if s.nwords ≤ idx.toNat then .next (s.error Opcode.rdw.byte .range)
  else
    match bsRdw idx s with
    | some v => .next (s.respond Opcode.rdw.byte .ok v)
    | none => .next s.raiseFatal

end Sys2Proof.Machine
end

