-- ==== Sys2Proof/Machine/Dispatch.lean ====
section
/-! DEFINITION. One arm per instruction. -/

namespace Sys2Proof.Machine

def exec (i : Instr) (s : State) : Host.Outcome State Fault Refusal :=
  match i with
  | .nop rsv arg => Sys2Proof.Machine.execNop rsv arg s
  | .cfg rsv m k => Sys2Proof.Machine.execCfg rsv m k s
  | .add rsv key => Sys2Proof.Machine.execAdd rsv key s
  | .qry rsv key => Sys2Proof.Machine.execQry rsv key s
  | .hash rsv seed key => Sys2Proof.Machine.execHash rsv seed key s
  | .bget rsv arg pos => Sys2Proof.Machine.execBget rsv arg pos s
  | .rdw rsv arg idx => Sys2Proof.Machine.execRdw rsv arg idx s
  | .stat rsv sel => Sys2Proof.Machine.execStat rsv sel s
  | .bsGet pos => Sys2Proof.Machine.execBsGet pos s
  | .bsSet pos => Sys2Proof.Machine.execBsSet pos s
  | .bsRdw idx => Sys2Proof.Machine.execBsRdw idx s
  | .bsClear n => Sys2Proof.Machine.execBsClear n s
  | .hpHash seed key => Sys2Proof.Machine.execHpHash seed key s
  | .hpProbe seed m key => Sys2Proof.Machine.execHpProbe seed m key s

end Sys2Proof.Machine
end

