-- ==== Sys2Proof/Machine/Step.lean ====
section
/-! DEFINITION. One step at the command level (`00_scope.md` R3): reset wins; a block in the fatal state has stopped; a
sub-block request is served; a response waits for the host; otherwise the next whole frame is taken and executed.
DEDUCED: log entry 10 (what one step is) and log entry 12 (the fatal stop). DESIGN CHOICE: log entry 11 (the order). -/

namespace Sys2Proof.Machine

def step (s : State) : Host.Outcome State Fault Refusal :=
  if s.rstN = false then .next s.applyReset
  else if s.fatal = true then .fault .fatalStop
  else
    match s.bsReq with
    | some r => exec (decodeBs r) s.takeBsReq
    | none =>
      match s.hpReq with
      | some r => exec (decodeHp r) s.takeHpReq
      | none =>
        match s.rsp with
        | _ :: _ => .next s.transferBeat
        | [] =>
          match decodeBeats (s.rx ++ s.cmd) with
          | .instr i rest => exec i (s.takeFrame rest)
          | .unassigned opc rest => .next ((s.takeFrame rest).execUnassigned opc)
          | .incomplete => .next s.acceptBeats

/-- `s` with the instruction of an opcode-table word standing where the next step takes it (log entry 8). -/
def State.withFetchWord (s : State) (nbits w : Nat) : State := s.withRequest (tableRequest nbits w)

end Sys2Proof.Machine
end

