-- ==== Sys2Proof/Machine/Asm.lean ====
section
/-! DEFINITION. The assembler syntax (`30_encoding.md` R63, R64): a line of text to the beats it stands for. It is the notation
of the spec's programs, not part of the block; no step uses it. DESIGN CHOICE: log entry 18 (blanks, ranges). -/

namespace Sys2Proof.Machine

/-- What one line stands for. -/
inductive AsmLine where
  /-- A blank line, or a comment alone. -/
  | blank
  /-- A command. -/
  | command (i : Instr)
  /-- `.beat num`: one raw beat. -/
  | beat (v : Beat)
  deriving DecidableEq, Repr

/-- What is left of a text and what was read from its front. -/
abbrev Parsed (α : Type) := Option (α × List Char)

def isBlank (c : Char) : Bool := c = ' ' || c = '\t'

def dropBlanks : List Char → List Char
  | [] => []
  | c :: cs => if isBlank c then dropBlanks cs else c :: cs

def decDigit (c : Char) : Option Nat := if '0' ≤ c ∧ c ≤ '9' then some (c.toNat - 48) else none

def hexDigit (c : Char) : Option Nat :=
  if '0' ≤ c ∧ c ≤ '9' then some (c.toNat - 48)
  else if 'a' ≤ c ∧ c ≤ 'f' then some (c.toNat - 87)
  else if 'A' ≤ c ∧ c ≤ 'F' then some (c.toNat - 55)
  else none

/-- Digits in a base, after the value read so far. -/
def moreDigits (digit : Char → Option Nat) (base : Nat) : Nat → List Char → Nat × List Char
  | acc, [] => (acc, [])
  | acc, c :: cs =>
    match digit c with
    | some d => moreDigits digit base (base * acc + d) cs
    | none => (acc, c :: cs)

/-- At least one digit. -/
def someDigits (digit : Char → Option Nat) (base : Nat) : List Char → Parsed Nat
  | [] => none
  | c :: cs => (digit c).map fun d => moreDigits digit base d cs

/-- `num`: decimal digits, or `0x` and hexadecimal digits. -/
def parseNum : List Char → Parsed Nat
  | '0' :: 'x' :: cs => someDigits hexDigit 16 cs
  | cs => someDigits decDigit 10 cs

/-- A number that fits the field it is written for. -/
def parseField (w : Nat) (cs : List Char) : Parsed (BitVec w) :=
  match parseNum (dropBlanks cs) with
  | some (n, rest) => if n < 2 ^ w then some (BitVec.ofNat w n, rest) else none
  | none => none

/-- The character itself. -/
def parseChar (want : Char) (cs : List Char) : Option (List Char) :=
  match dropBlanks cs with
  | [] => none
  | c :: rest => if c = want then some rest else none

/-- Two hex digits as one byte. -/
def hexByte (a b : Char) : Option Byte :=
  match hexDigit a, hexDigit b with
  | some x, some y => some (BitVec.ofNat 8 (16 * x + y))
  | _, _ => none

def consByte (b : Option Byte) (p : Parsed (List Byte)) : Parsed (List Byte) :=
  match b, p with
  | some x, some (bs, rest) => some (x :: bs, rest)
  | _, _ => none

/-- The bytes of a quoted key after its opening quote: ASCII codes, and the escapes for a backslash, a quote and a byte. -/
def quotedBytes : List Char → Parsed (List Byte)
  | [] => none
  | '"' :: cs => some ([], cs)
  | '\\' :: '\\' :: cs => consByte (some 0x5c) (quotedBytes cs)
  | '\\' :: '"' :: cs => consByte (some 0x22) (quotedBytes cs)
  | '\\' :: 'x' :: a :: b :: cs => consByte (hexByte a b) (quotedBytes cs)
  | '\\' :: _ => none
  | c :: cs => consByte (if c.toNat < 128 then some (BitVec.ofNat 8 c.toNat) else none) (quotedBytes cs)

/-- The bytes of a hex key after its opening quote. -/
def hexBytes : List Char → Parsed (List Byte)
  | '"' :: cs => some ([], cs)
  | a :: b :: cs => consByte (hexByte a b) (hexBytes cs)
  | _ => none

/-- `key`. -/
def parseKey (cs : List Char) : Parsed (List Byte) :=
  match dropBlanks cs with
  | '"' :: rest => quotedBytes rest
  | 'x' :: '"' :: rest => hexBytes rest
  | _ => none

/-- A word of letters, `_` and `.`. -/
def takeWord : List Char → List Char × List Char
  | [] => ([], [])
  | c :: cs =>
    if ('A' ≤ c ∧ c ≤ 'Z') ∨ ('a' ≤ c ∧ c ≤ 'z') ∨ c = '_' ∨ c = '.' then
      (c :: (takeWord cs).1, (takeWord cs).2)
    else ([], c :: cs)

/-- The selector names of R63. -/
def selName (w : List Char) : Option (BitVec 32) :=
  if w = ['I', 'D'] then some 0
  else if w = ['S', 'T', 'A', 'T', 'U', 'S'] then some 1
  else if w = ['M'] then some 2
  else if w = ['K'] then some 3
  else if w = ['N', 'W', 'O', 'R', 'D', 'S'] then some 4
  else if w = ['C', 'A', 'P', '_', 'M'] then some 5
  else if w = ['C', 'A', 'P', '_', 'K'] then some 6
  else if w = ['C', 'A', 'P', '_', 'K', 'E', 'Y'] then some 7
  else none

/-- `sel`: a number or a name. -/
def parseSel (cs : List Char) : Parsed (BitVec 32) :=
  match parseField 32 cs with
  | some r => some r
  | none => (selName (takeWord (dropBlanks cs)).1).map fun v => (v, (takeWord (dropBlanks cs)).2)

/-- Only blanks, or blanks and a comment, may follow a command. -/
def lineEnds (cs : List Char) : Bool :=
  match dropBlanks cs with
  | [] => true
  | c :: _ => c = ';'

/-- A parsed operand as a line, when nothing but a comment follows. -/
def finish {α : Type} (mk : α → AsmLine) : Parsed α → Option AsmLine
  | some (a, rest) => if lineEnds rest then some (mk a) else none
  | none => none

/-- Two operands with a comma between: `CFG m, k` and `HASH seed, key`. -/
def parsePair {α β : Type} (first : List Char → Parsed α) (second : List Char → Parsed β) (cs : List Char) :
    Parsed (α × β) :=
  match first cs with
  | some (a, rest) =>
    match parseChar ',' rest with
    | some rest' => (second rest').map fun r => ((a, r.1), r.2)
    | none => none
  | none => none

/-- A key the length field can carry. -/
def finishKey (mk : List Byte → Instr) (p : Parsed (List Byte)) : Option AsmLine :=
  match p with
  | some (key, _) => if keyFits key then finish (fun key => .command (mk key)) p else none
  | none => none

/-- One line (R63), with the pseudo-instructions `NEW`, `CONTAINS` and the directive `.beat` (R64). The assembler writes
`RSV = 0`, and `ARG = 0` for `NOP`, `BGET`, `RDW`. -/
def parseLine (cs : List Char) : Option AsmLine :=
  let (w, rest) := takeWord (dropBlanks cs)
  if w = [] then (if lineEnds rest then some .blank else none)
  else if w = ['N', 'O', 'P'] then (if lineEnds rest then some (.command (.nop 0 0)) else none)
  else if w = ['C', 'F', 'G'] ∨ w = ['N', 'E', 'W'] then
    finish (fun p => .command (.cfg 0 p.1 p.2)) (parsePair (parseField 64) (parseField 32) rest)
  else if w = ['A', 'D', 'D'] then finishKey (.add 0) (parseKey rest)
  else if w = ['Q', 'R', 'Y'] ∨ w = ['C', 'O', 'N', 'T', 'A', 'I', 'N', 'S'] then finishKey (.qry 0) (parseKey rest)
  else if w = ['H', 'A', 'S', 'H'] then
    match parsePair (parseField 64) parseKey rest with
    | some ((seed, key), rest') => finishKey (.hash 0 seed) (some (key, rest'))
    | none => none
  else if w = ['B', 'G', 'E', 'T'] then finish (fun pos => .command (.bget 0 0 pos)) (parseField 64 rest)
  else if w = ['R', 'D', 'W'] then finish (fun idx => .command (.rdw 0 0 idx)) (parseField 64 rest)
  else if w = ['S', 'T', 'A', 'T'] then finish (fun sel => .command (.stat 0 sel)) (parseSel rest)
  else if w = ['.', 'b', 'e', 'a', 't'] then finish .beat (parseField 64 rest)
  else none

/-- The beats of a line. -/
def AsmLine.beats : AsmLine → List Beat
  | .blank => []
  | .beat v => [v]
  | .command i =>
    match encode i with
    | .cmd beats => beats
    | .bs _ => []
    | .hp _ => []

/-- The beats of a text, line by line; `none` where a line is not of the syntax. -/
def assemble : List (List Char) → Option (List Beat)
  | [] => some []
  | l :: ls =>
    match parseLine l, assemble ls with
    | some a, some beats => some (a.beats ++ beats)
    | _, _ => none

end Sys2Proof.Machine
end

