-- ==== Sys2Proof/Safety.lean ====
section
/-! DEFINITION. What claims are stated in: the invariant every step keeps, the membership a filter promises, runs of
instructions, and when a run has ended (`70_reset_and_hazards.md` R158). -/

namespace Sys2Proof

/-- On an instance with these parameters the instruction can take a bit away or change the filter's geometry: a `CFG` that
passes its checks (R101), and the raw `BS_CLEAR` (R24, R81). -/
def Instr.rebuilds (c : Config) : Instr → Bool
  | .cfg rsv m k =>
    rsv == 0 && m != 0 && k != 0 && decide (m.toNat ≤ c.mMax.toNat) && decide (k.toNat ≤ c.kMax.toNat)
  | .bsClear _ => true
  | .nop _ _ => false
  | .add _ _ => false
  | .qry _ _ => false
  | .hash _ _ _ => false
  | .bget _ _ _ => false
  | .rdw _ _ _ => false
  | .stat _ _ => false
  | .bsGet _ => false
  | .bsSet _ => false
  | .bsRdw _ => false
  | .hpHash _ _ => false
  | .hpProbe _ _ _ => false

/-- The command carries a key, so its last payload beat may have lanes that are ignored (R55). -/
def Instr.hasKey : Instr → Bool
  | .add _ _ => true
  | .qry _ _ => true
  | .hash _ _ _ => true
  | .nop _ _ => false
  | .cfg _ _ _ => false
  | .bget _ _ _ => false
  | .rdw _ _ _ => false
  | .stat _ _ => false
  | .bsGet _ => false
  | .bsSet _ => false
  | .bsRdw _ => false
  | .bsClear _ => false
  | .hpHash _ _ => false
  | .hpProbe _ _ _ => false

/-- The `OPC` byte of a command (R58). -/
def Instr.opcByte : Instr → BitVec 8
  | .nop _ _ => 0x00
  | .cfg _ _ _ => 0x01
  | .add _ _ => 0x02
  | .qry _ _ => 0x03
  | .hash _ _ _ => 0x04
  | .bget _ _ _ => 0x05
  | .rdw _ _ _ => 0x06
  | .stat _ _ => 0x07
  | .bsGet _ => 0
  | .bsSet _ => 0
  | .bsRdw _ => 0
  | .bsClear _ => 0
  | .hpHash _ _ => 0
  | .hpProbe _ _ _ => 0

/-- The instruction is a command, not a request on a sub-block's own port. -/
def Instr.isCommand : Instr → Bool
  | .nop _ _ => true
  | .cfg _ _ _ => true
  | .add _ _ => true
  | .qry _ _ => true
  | .hash _ _ _ => true
  | .bget _ _ _ => true
  | .rdw _ _ _ => true
  | .stat _ _ => true
  | .bsGet _ => false
  | .bsSet _ => false
  | .bsRdw _ => false
  | .bsClear _ => false
  | .hpHash _ _ => false
  | .hpProbe _ _ _ => false

end Sys2Proof

namespace Sys2Proof.Machine

/-- R23, with the values R18 and R19 give while no filter exists. -/
def State.geometryOk (s : State) : Prop :=
  if s.cfgd then 1 ≤ s.m.toNat ∧ s.m.toNat ≤ s.config.mMax.toNat ∧ 1 ≤ s.k.toNat ∧ s.k.toNat ≤ s.config.kMax.toNat
  else s.m = 0 ∧ s.k = 0

/-- The memory is in canonical form, and every word it lists exists (R10, R21). -/
def State.bitsOk (s : State) : Prop :=
  Memory.wf s.bits ∧ ∀ w v, Memory.lookup s.bits w = some v → w < s.config.nwMax

/-- While a filter exists its words have been written, and the slack bits of the last one are 0 (R22, R38). -/
def State.slackOk (s : State) : Prop :=
  s.cfgd = true →
    (∀ w, w < s.nwords → (Memory.lookup s.bits w).isSome = true) ∧
    ∀ pos, s.m.toNat ≤ pos → pos < 64 * s.nwords → s.bitAt pos = false

/-- `LASTERR` holds 0 or one of the five error codes (R17, R120). -/
def State.lasterrOk (s : State) : Prop := s.lasterr.toNat ≤ 5

/-- The parser is idle or holds part of a frame, and is idle while a response waits; a response has at most two beats
(R25, R40, R57, R60). -/
def State.portsOk (s : State) : Prop :=
  decodeBeats s.rx = .incomplete ∧ (s.rsp ≠ [] → s.rx = []) ∧ s.rsp.length ≤ 2

/-- The invariant of the machine. -/
structure State.Inv (s : State) : Prop where
  config : s.config.wf
  geometry : s.geometryOk
  bits : s.bitsOk
  slack : s.slackOk
  lasterr : s.lasterrOk
  ports : s.portsOk

/-- Every position the key probes is set: what `QRY` asks, `ADD` establishes and R106 (a), (d) promise to last. -/
def State.holds (s : State) (key : List Byte) : Prop :=
  ∀ p ∈ probes key s.m s.k, s.bitAt p.toNat = true

/-- No bit of the store goes from 1 to 0 from `s` to `t` (R24). -/
def State.bitsGrow (s t : State) : Prop := ∀ pos, s.bitAt pos = true → t.bitAt pos = true

/-- `t` has the filter and the flags of `s`: `M`, `K`, `CFGD`, `FATAL`, and every word of `BITS`. -/
def State.sameFilter (s t : State) : Prop :=
  t.m = s.m ∧ t.k = s.k ∧ t.cfgd = s.cfgd ∧ t.fatal = s.fatal ∧ ∀ w, t.memRead w = s.memRead w

/-- `s` and `t` agree on the ports, the parser, what the host has offered and received, the instance's parameters and the
reset counter: all of the state but the architectural registers and the response port. -/
def State.samePorts (s t : State) : Prop :=
  t.config = s.config ∧ t.rstN = s.rstN ∧ t.rspReady = s.rspReady ∧ t.cmd = s.cmd ∧ t.rx = s.rx ∧ t.sent = s.sent ∧
    t.bsReq = s.bsReq ∧ t.bsRsp = s.bsRsp ∧ t.hpReq = s.hpReq ∧ t.hpRsp = s.hpRsp ∧ t.epoch = s.epoch

/-- From `s` to `t` a command was answered with these `OPC` and `CODE` bytes and this value (R60, R128), and nothing else
changed outside the filter: `LASTERR` is the code unless the code is `OK`. -/
def State.answered (s t : State) (opc code : BitVec 8) (value : Word) : Prop :=
  t.rsp = [opc ++ code ++ 0#48, value] ∧ t.lasterr = (if code = 0 then s.lasterr else code) ∧ s.samePorts t

/-- The command was refused with this code: answered so, with value 0 and no effect on the filter (R128). -/
def State.refusedWith (s t : State) (opc code : BitVec 8) : Prop := s.answered t opc code 0 ∧ s.sameFilter t

/-- `s` and `t` agree on all that a command may read (R10, R21): the architectural registers, the parameters, and the words a
filter of `M` bits uses. They may differ in every word no command can reach. -/
def State.agree (s t : State) : Prop :=
  t.m = s.m ∧ t.k = s.k ∧ t.cfgd = s.cfgd ∧ t.fatal = s.fatal ∧ t.lasterr = s.lasterr ∧ t.config = s.config ∧
    (s.cfgd = true → ∀ w, w < s.nwords → t.memRead w = s.memRead w)

/-- The hash of R91 written again over the naturals, every product reduced modulo `2^64` and every shift a division (R96).
It exists to state what `hpHash` computes; no meaning uses it. -/
def natXorShift (h : Nat) : Nat := h ^^^ (h / 2 ^ 47)

/-- `MUL` as a natural number (R6, R7). -/
def natMulConst : Nat := 0xc6a4a7935bd1e995

/-- The low 64 bits of a product by `MUL` (R96). -/
def natMul (h : Nat) : Nat := natMulConst * h % 2 ^ 64

/-- Steps 3 and 4 of R91 over the bytes left. -/
def natHashBody : Nat → List Byte → Nat → Nat
  | 0, data, h => if data.length = 0 then h else natMul (h ^^^ leNat data)
  | q + 1, data, h =>
    natHashBody q (data.drop 8) (natMul (h ^^^ natMul (natXorShift (natMul (leNat (data.take 8))))))

/-- R91 over the naturals. -/
def natHash (data : List Byte) (seed : Nat) : Nat :=
  natXorShift (natMul (natXorShift (natHashBody (data.length / 8) data (seed ^^^ natMul data.length))))

/-- The checks of R127 that apply to a command, in their order, each with the code it gives when it fails. -/
def checks (s : State) : Instr → List (Bool × BitVec 8)
  | .nop rsv arg => [(rsv == 0 && arg == 0, 1)]
  | .cfg rsv m k =>
    [(rsv == 0, 1), (m != 0 && k != 0, 2),
      (decide (m.toNat ≤ s.config.mMax.toNat) && decide (k.toNat ≤ s.config.kMax.toNat), 3)]
  | .add rsv key => [(rsv == 0, 1), (s.cfgd, 4), (decide (key.length ≤ s.config.keyMax.toNat), 3)]
  | .qry rsv key => [(rsv == 0, 1), (s.cfgd, 4), (decide (key.length ≤ s.config.keyMax.toNat), 3)]
  | .hash rsv _ key => [(rsv == 0, 1), (decide (key.length ≤ s.config.keyMax.toNat), 3)]
  | .bget rsv arg pos => [(rsv == 0 && arg == 0, 1), (s.cfgd, 4), (decide (pos.toNat < s.m.toNat), 5)]
  | .rdw rsv arg idx =>
    [(rsv == 0 && arg == 0, 1), (s.cfgd, 4), (decide (idx.toNat < ceilDiv s.m.toNat 64), 5)]
  | .stat rsv sel => [(rsv == 0 && decide (sel.toNat ≤ 7), 1)]
  | .bsGet _ => []
  | .bsSet _ => []
  | .bsRdw _ => []
  | .bsClear _ => []
  | .hpHash _ _ => []
  | .hpProbe _ _ _ => []

/-- The code of the first check that fails, 0 (`OK`) if none does (R127). -/
def firstFailing : List (Bool × BitVec 8) → BitVec 8
  | [] => 0
  | (ok, code) :: rest => if ok then firstFailing rest else code

/-- Instructions executed one after another, each on the state the one before left. -/
def execAll : List Instr → State → Host.Outcome State Fault Refusal
  | [], s => .next s
  | i :: is, s =>
    match exec i s with
    | .next t => execAll is t
    | .fault r => .fault r
    | .refused r => .refused r

/-- `n` steps. -/
def stepN : Nat → State → Host.Outcome State Fault Refusal
  | 0, s => .next s
  | n + 1, s =>
    match step s with
    | .next t => stepN n t
    | .fault r => .fault r
    | .refused r => .refused r

/-- The beats of a stream of commands, frame after frame (R50, R57). -/
def frames : List Instr → List Beat
  | [] => []
  | i :: is =>
    match encode i with
    | .cmd beats => beats ++ frames is
    | .bs _ => frames is
    | .hp _ => frames is

/-- The whole response has been transferred (R60, R154). -/
def State.deliver (s : State) : State := { s with rsp := [], sent := s.sent ++ s.rsp }

/-- A stream of commands at the command level (R3, R40): each is executed once the response of the one before has been
transferred. -/
def runCommands : List Instr → State → Host.Outcome State Fault Refusal
  | [], s => .next s
  | i :: is, s =>
    match exec i s with
    | .next t => runCommands is t.deliver
    | .fault r => .fault r
    | .refused r => .refused r

/-- The run has ended (R158): every offered beat taken, the parser idle, the last response transferred, `FATAL = 0`. -/
def State.runEnded (s : State) : Bool :=
  s.rstN && !s.fatal && s.cmd.isEmpty && s.rx.isEmpty && s.rsp.isEmpty && s.bsReq.isNone && s.hpReq.isNone

/-- R158 (a): the run went wrong. -/
def State.wentWrong (s : State) : Bool := s.fatalO

/-- R158 (b): the beats ran out inside a frame. -/
def State.insideFrame (s : State) : Bool := s.cmd.isEmpty && !s.rx.isEmpty

/-- R158 (c): a response the host has not accepted. -/
def State.awaitsHost (s : State) : Bool := s.rspValid && !s.rspReady

end Sys2Proof.Machine
end

