-- ==== Sys2Proof/Certificates/Slice0/Obligations.lean ====
section
/-! DEFINITION. The statements for the provers. Each docstring names the rule of the spec a statement formalises, or the
rules it is derived from; where a clause is the model's own, the docstring says so and names the log entry. -/

open Sys2Proof Sys2Proof.Machine

/-! ## Reset -/

/-- R27: the reset values, register by register. `BITS` is unspecified: each word reads the free value of log entry 4,
which nothing constrains. The value of the parameters is whatever the instance has. -/
def Obligations.ResetLeavesNoFilter : Prop :=
  State.reset.cfgd = false ∧ State.reset.fatal = false ∧ State.reset.lasterr = 0 ∧ State.reset.m = 0 ∧
  State.reset.k = 0 ∧ State.reset.nwords = 0 ∧
  statRead 0 State.reset = some 0x424C4D4600000001 ∧ statRead 5 State.reset = some State.reset.config.mMax ∧
  statRead 6 State.reset = some (State.reset.config.kMax.zeroExtend 64) ∧
  statRead 7 State.reset = some (State.reset.config.keyMax.zeroExtend 64) ∧
  (∀ w, State.reset.memRead w = Config.unwrittenWord 0 w) ∧
  State.reset.rx = [] ∧ State.reset.rspValid = false ∧ State.reset.fatalO = false

/-- R140: while `rst_n` is 0 the outputs are 0 and a step, from any state at all, the fatal one included, leaves the reset
state: no filter, no fault, the parser idle, the partial frame, the requests and the untransferred response dropped, `BITS`
unspecified anew. That what the host still offers and has received stays is the model's choice (log entry 13). -/
def Obligations.ResetPinDropsEverything : Prop :=
  ∀ s : State, s.rstN = false →
    s.cmdReady = false ∧ s.rspValid = false ∧ s.fatalO = false ∧
    ∃ t, step s = .next t ∧ t.cfgd = false ∧ t.fatal = false ∧ t.lasterr = 0 ∧ t.m = 0 ∧ t.k = 0 ∧ t.rx = [] ∧
      t.rsp = [] ∧ t.bsReq = none ∧ t.hpReq = none ∧ t.bsRsp = none ∧ t.hpRsp = none ∧
      (∀ w, t.memRead w = Config.unwrittenWord (s.epoch + 1) w) ∧
      t.config = s.config ∧ t.rstN = false ∧ t.rspReady = s.rspReady ∧ t.cmd = s.cmd ∧ t.sent = s.sent

/-! ## The commands -/

/-- R110. -/
def Obligations.NopOnlyAnswers : Prop :=
  ∀ (rsv : BitVec 24) (arg : BitVec 32) (s : State),
    (rsv = 0 ∧ arg = 0 → ∃ t, exec (.nop rsv arg) s = .next t ∧ s.answered t 0x00 0x00 0 ∧ s.sameFilter t) ∧
    (rsv ≠ 0 ∨ arg ≠ 0 → ∃ t, exec (.nop rsv arg) s = .next t ∧ s.refusedWith t 0x00 0x01)

/-- R111, with the registers of R14 to R20: each selector's value, and the illegal ones. -/
def Obligations.StatReadsTheRegisterMap : Prop :=
  ∀ (rsv : BitVec 24) (sel : BitVec 32) (s : State),
    (rsv = 0 ∧ sel.toNat ≤ 7 →
      ∃ t v, exec (.stat rsv sel) s = .next t ∧ s.answered t 0x07 0x00 v ∧ s.sameFilter t ∧
        (sel = 0 → v = 0x424C4D4600000001) ∧
        (sel = 1 → v.toNat = 256 * s.lasterr.toNat + (if s.cfgd then 1 else 0)) ∧
        (sel = 2 → v = s.m) ∧
        (sel = 3 → v.toNat = s.k.toNat) ∧
        (sel = 4 → v.toNat = (s.m.toNat + 63) / 64) ∧
        (sel = 5 → v = s.config.mMax) ∧
        (sel = 6 → v.toNat = s.config.kMax.toNat) ∧
        (sel = 7 → v.toNat = s.config.keyMax.toNat)) ∧
    (rsv ≠ 0 ∨ 7 < sel.toNat → ∃ t, exec (.stat rsv sel) s = .next t ∧ s.refusedWith t 0x07 0x01)

/-- R112: `HASH` needs no filter; it answers the hash of R91, written here over the naturals. -/
def Obligations.HashAnswersTheHash : Prop :=
  ∀ (rsv : BitVec 24) (seed : BitVec 64) (key : List Byte) (s : State),
    (rsv = 0 ∧ key.length ≤ s.config.keyMax.toNat →
      ∃ t v, exec (.hash rsv seed key) s = .next t ∧ s.answered t 0x04 0x00 v ∧ s.sameFilter t ∧
        v.toNat = natHash key seed.toNat) ∧
    (rsv ≠ 0 → ∃ t, exec (.hash rsv seed key) s = .next t ∧ s.refusedWith t 0x04 0x01) ∧
    (rsv = 0 ∧ s.config.keyMax.toNat < key.length →
      ∃ t, exec (.hash rsv seed key) s = .next t ∧ s.refusedWith t 0x04 0x03)

/-- R113: bit `pos` of the filter is bit `pos mod 64` of word `pos div 64`; the checks come before the access, in their
order. -/
def Obligations.BgetAnswersOneBit : Prop :=
  ∀ (rsv : BitVec 24) (arg : BitVec 32) (pos : BitVec 64) (s : State),
    (rsv = 0 ∧ arg = 0 ∧ s.cfgd = true ∧ pos.toNat < s.m.toNat →
      ∃ t, exec (.bget rsv arg pos) s = .next t ∧ s.sameFilter t ∧
        s.answered t 0x05 0x00 (if (s.memRead (pos.toNat / 64)).getLsbD (pos.toNat % 64) then 1 else 0)) ∧
    (rsv ≠ 0 ∨ arg ≠ 0 → ∃ t, exec (.bget rsv arg pos) s = .next t ∧ s.refusedWith t 0x05 0x01) ∧
    (rsv = 0 ∧ arg = 0 ∧ s.cfgd = false →
      ∃ t, exec (.bget rsv arg pos) s = .next t ∧ s.refusedWith t 0x05 0x04) ∧
    (rsv = 0 ∧ arg = 0 ∧ s.cfgd = true ∧ s.m.toNat ≤ pos.toNat →
      ∃ t, exec (.bget rsv arg pos) s = .next t ∧ s.refusedWith t 0x05 0x05)

/-- R114. -/
def Obligations.RdwAnswersOneWord : Prop :=
  ∀ (rsv : BitVec 24) (arg : BitVec 32) (idx : BitVec 64) (s : State),
    (rsv = 0 ∧ arg = 0 ∧ s.cfgd = true ∧ idx.toNat < (s.m.toNat + 63) / 64 →
      ∃ t, exec (.rdw rsv arg idx) s = .next t ∧ s.sameFilter t ∧ s.answered t 0x06 0x00 (s.memRead idx.toNat)) ∧
    (rsv ≠ 0 ∨ arg ≠ 0 → ∃ t, exec (.rdw rsv arg idx) s = .next t ∧ s.refusedWith t 0x06 0x01) ∧
    (rsv = 0 ∧ arg = 0 ∧ s.cfgd = false →
      ∃ t, exec (.rdw rsv arg idx) s = .next t ∧ s.refusedWith t 0x06 0x04) ∧
    (rsv = 0 ∧ arg = 0 ∧ s.cfgd = true ∧ (s.m.toNat + 63) / 64 ≤ idx.toNat →
      ∃ t, exec (.rdw rsv arg idx) s = .next t ∧ s.refusedWith t 0x06 0x05)

/-- R101: a legal `CFG` constructs an empty filter of exactly `m` bits and `k` probes, clearing the words it uses and no
other. -/
def Obligations.CfgConstructsAnEmptyFilter : Prop :=
  ∀ (m : BitVec 64) (k : BitVec 32) (s : State),
    1 ≤ m.toNat → m.toNat ≤ s.config.mMax.toNat → 1 ≤ k.toNat → k.toNat ≤ s.config.kMax.toNat →
      ∃ t, exec (.cfg 0 m k) s = .next t ∧ s.answered t 0x01 0x00 0 ∧
        t.m = m ∧ t.k = k ∧ t.cfgd = true ∧ t.fatal = s.fatal ∧
        ∀ w, t.memRead w = if w < (m.toNat + 63) / 64 then 0 else s.memRead w

/-- R101, R122, R123: the refusals of `CFG`, in their order; an earlier filter is untouched. -/
def Obligations.CfgRefusesAndKeepsTheFilter : Prop :=
  ∀ (rsv : BitVec 24) (m : BitVec 64) (k : BitVec 32) (s : State),
    (rsv ≠ 0 → ∃ t, exec (.cfg rsv m k) s = .next t ∧ s.refusedWith t 0x01 0x01) ∧
    (rsv = 0 ∧ (m = 0 ∨ k = 0) → ∃ t, exec (.cfg rsv m k) s = .next t ∧ s.refusedWith t 0x01 0x02) ∧
    (rsv = 0 ∧ m ≠ 0 ∧ k ≠ 0 ∧ (s.config.mMax.toNat < m.toNat ∨ s.config.kMax.toNat < k.toNat) →
      ∃ t, exec (.cfg rsv m k) s = .next t ∧ s.refusedWith t 0x01 0x03)

/-- R102: `ADD` sets the bits at `HP_HASH(key, i) mod M`, `i = 0 .. K−1`, and changes no other bit, so no word that none of
them lies in. The premise `1 ≤ M` is R23's, which the machine's invariant gives whenever `CFGD = 1`. -/
def Obligations.AddSetsExactlyTheProbes : Prop :=
  ∀ (key : List Byte) (s : State),
    s.cfgd = true → 1 ≤ s.m.toNat → key.length ≤ s.config.keyMax.toNat →
      ∃ t, exec (.add 0 key) s = .next t ∧ s.answered t 0x02 0x00 0 ∧
        t.m = s.m ∧ t.k = s.k ∧ t.cfgd = s.cfgd ∧ t.fatal = s.fatal ∧
        (∀ q, t.bitAt q = true ↔
          s.bitAt q = true ∨ ∃ i, i < s.k.toNat ∧ (hpHash key (BitVec.ofNat 64 i)).toNat % s.m.toNat = q) ∧
        ∀ w, (∀ i, i < s.k.toNat → (hpHash key (BitVec.ofNat 64 i)).toNat % s.m.toNat / 64 ≠ w) →
          t.memRead w = s.memRead w

/-- R103: `QRY` answers 1 exactly when the bits at all `K` probes are set, and changes nothing. The premise `1 ≤ M` is
R23's. -/
def Obligations.QryTestsAllTheProbes : Prop :=
  ∀ (key : List Byte) (s : State),
    s.cfgd = true → 1 ≤ s.m.toNat → key.length ≤ s.config.keyMax.toNat →
      ∃ t v, exec (.qry 0 key) s = .next t ∧ s.answered t 0x03 0x00 v ∧ s.sameFilter t ∧
        ((∀ i, i < s.k.toNat → s.bitAt ((hpHash key (BitVec.ofNat 64 i)).toNat % s.m.toNat) = true) → v = 1) ∧
        ((∃ i, i < s.k.toNat ∧ s.bitAt ((hpHash key (BitVec.ofNat 64 i)).toNat % s.m.toNat) = false) → v = 0)

/-- R102, R103, R124, R123: the refusals of `ADD` and `QRY`, in their order. -/
def Obligations.AddAndQryRefuse : Prop :=
  ∀ (rsv : BitVec 24) (key : List Byte) (s : State),
    (rsv ≠ 0 →
      (∃ t, exec (.add rsv key) s = .next t ∧ s.refusedWith t 0x02 0x01) ∧
      (∃ t, exec (.qry rsv key) s = .next t ∧ s.refusedWith t 0x03 0x01)) ∧
    (rsv = 0 ∧ s.cfgd = false →
      (∃ t, exec (.add rsv key) s = .next t ∧ s.refusedWith t 0x02 0x04) ∧
      (∃ t, exec (.qry rsv key) s = .next t ∧ s.refusedWith t 0x03 0x04)) ∧
    (rsv = 0 ∧ s.cfgd = true ∧ s.config.keyMax.toNat < key.length →
      (∃ t, exec (.add rsv key) s = .next t ∧ s.refusedWith t 0x02 0x03) ∧
      (∃ t, exec (.qry rsv key) s = .next t ∧ s.refusedWith t 0x03 0x03))

/-! ## The micro-operations -/

/-- R83, on the request port of R65. -/
def Obligations.BsGetAnswersTheBit : Prop :=
  ∀ (pos : BitVec 64) (s : State),
    s.cfgd = true → pos.toNat < s.m.toNat →
      exec (.bsGet pos) s = .next { s with
        bsRsp := some (.data (if (s.memRead (pos.toNat / 64)).getLsbD (pos.toNat % 64) then 1 else 0)) }

/-- R82: one word is rewritten, with one bit set; every other word keeps its value. -/
def Obligations.BsSetRewritesOneWord : Prop :=
  ∀ (pos : BitVec 64) (s : State),
    s.cfgd = true → pos.toNat < s.m.toNat →
      ∃ t, exec (.bsSet pos) s = .next t ∧ t = { s with bits := t.bits, bsRsp := some (.data 0) } ∧
        ∀ w, t.memRead w =
          if w = pos.toNat / 64 then s.memRead w ||| (1#64 <<< (pos.toNat % 64)) else s.memRead w

/-- R84. -/
def Obligations.BsRdwAnswersTheWord : Prop :=
  ∀ (idx : BitVec 64) (s : State),
    s.cfgd = true → idx.toNat < (s.m.toNat + 63) / 64 →
      exec (.bsRdw idx) s = .next { s with bsRsp := some (.data (s.memRead idx.toNat)) }

/-- R81, for `1 ≤ n ≤ NW_MAX`: the first `n` words are cleared and no other word is written. Outside R81's operand range both
clauses are the model's choice (log entry 7, DESIGN CHOICE): `n = 0`, in the first, clears nothing; a count beyond the store, in
the second, faults. -/
def Obligations.BsClearZeroesTheFirstWords : Prop :=
  ∀ (n : BitVec 64) (s : State),
    (n.toNat ≤ (s.config.mMax.toNat + 63) / 64 →
      ∃ t, exec (.bsClear n) s = .next t ∧ t = { s with bits := t.bits, bsRsp := some (.data 0) } ∧
        ∀ w, t.memRead w = if w < n.toNat then 0 else s.memRead w) ∧
    ((s.config.mMax.toNat + 63) / 64 < n.toNat → exec (.bsClear n) s = .fault .clearBeyondStore)

/-- R82 to R85, R126: a request whose precondition fails touches no word, answers `bs_rsp_fault`, raises `FATAL`, answers no
command and stops the block until reset; and no command, from a state that meets the machine's invariant, ever does so. That
`exec` first ends in a next state with `FATAL = 1` and the step from there answers the fault `fatalStop` is the model's form of
the stop (log entry 12, DEDUCED). -/
def Obligations.OutOfRangeRequestIsFatal : Prop :=
  (∀ (i : Instr) (x : BitVec 64) (s : State),
    (i = .bsGet x ∨ i = .bsSet x) ∧ (s.cfgd = false ∨ s.m.toNat ≤ x.toNat) ∨
      i = .bsRdw x ∧ (s.cfgd = false ∨ (s.m.toNat + 63) / 64 ≤ x.toNat) →
    s.rstN = true →
    ∃ t, exec i s = .next t ∧ t = { s with fatal := true, bsRsp := some .bitRange } ∧
      t.fatalO = true ∧ t.cmdReady = false ∧ t.rspValid = false ∧ step t = .fault .fatalStop ∧
      ∃ u, step { t with rstN := false } = .next u ∧ u.fatal = false) ∧
  (∀ (i : Instr) (s t : State), i.isCommand = true → s.Inv → s.fatal = false → exec i s = .next t →
    t.fatal = false)

/-- R91: the micro-operation answers the hash and writes nothing else. For keys longer than `KEY_MAX`, outside R91's operand
range, that the engine's own port answers by the same pseudocode is the model's choice (log entry 16, DESIGN CHOICE). -/
def Obligations.HpHashAnswersTheHash : Prop :=
  ∀ (seed : BitVec 64) (key : List Byte) (s : State),
    ∃ v, exec (.hpHash seed key) s = .next { s with hpRsp := some v } ∧ v.toNat = natHash key seed.toNat

/-- R92, R97: the probe is the unsigned remainder, below `m`. For `m = 0`, which the spec leaves without a value, the request
completes too, with a value nothing constrains (log entry 5, DESIGN CHOICE). For a seed of `2^32` or above and for keys longer than
`KEY_MAX`, outside the operand ranges of R92 and R91, the same pseudocode is the model's choice (log entry 16, DESIGN CHOICE). -/
def Obligations.HpProbeAnswersTheRemainder : Prop :=
  ∀ (seed m : BitVec 64) (key : List Byte) (s : State),
    (m ≠ 0 → ∃ v, exec (.hpProbe seed m key) s = .next { s with hpRsp := some v } ∧
      v.toNat = natHash key seed.toNat % m.toNat ∧ v.toNat < m.toNat) ∧
    (m = 0 → ∃ v, exec (.hpProbe seed m key) s = .next { s with hpRsp := some v })

/-! ## The hash and the key bytes -/

/-- R91, R96: the machine's hash over words is the pseudocode over the naturals, every product reduced modulo `2^64`, every
shift a division, for every key and seed. -/
def Obligations.HashIsUnsignedModularArithmetic : Prop :=
  ∀ (key : List Byte) (seed : Word), (hpHash key seed).toNat = natHash key seed.toNat

/-- R91, corner case (c): for keys shorter than a chunk, not empty and of one length, the result depends on the seed and the
tail only through their exclusive or. -/
def Obligations.ShortKeysHashBySeedXorTail : Prop :=
  ∀ (a b : List Byte) (x y : Word),
    1 ≤ a.length → a.length ≤ 7 → b.length = a.length → x ^^^ leWord a = y ^^^ leWord b → hpHash a x = hpHash b y

/-- R55: a whole payload beat is the chunk, and the tail word is the last beat with the unused lanes masked off, whatever
they hold. -/
def Obligations.PayloadBeatsAreChunks : Prop :=
  ∀ (len : Nat) (beats : List Beat), (len + 7) / 8 ≤ beats.length →
    (keyBytes len beats).length = len ∧
    (∀ j, j < len → (keyBytes len beats)[j]? = (beats[j / 8]?).map fun b => b.extractLsb' (8 * (j % 8)) 8) ∧
    (∀ q, q < len / 8 → some (chunkAt (keyBytes len beats) q) = beats[q]?) ∧
    (len % 8 ≠ 0 → some (tailWord (keyBytes len beats)) =
      (beats[len / 8]?).map fun b => b &&& BitVec.ofNat 64 (2 ^ (8 * (len % 8)) - 1))

/-! ## Encoding -/

/-- Words written out from R52, R58, R65, R66 and the vectors of `95_test_vectors.md` decode to what they stand for. -/
def Obligations.SampleWordsDecode : Prop :=
  decodeBeats [0x0000000000000000] = .instr (.nop 0 0) [] ∧
  decodeBeats [0x0100000000000003, 0x00000000000003e8] = .instr (.cfg 0 1000 3) [] ∧
  decodeBeats [0x0200000000000003, 0x0000000000636261] = .instr (.add 0 [0x61, 0x62, 0x63]) [] ∧
  decodeBeats [0x0300000000000001, 0xffffffffffffff78] = .instr (.qry 0 [0x78]) [] ∧
  decodeBeats [0x0400000000000001, 0x0000000000000000, 0x0000000000000061] = .instr (.hash 0 0 [0x61]) [] ∧
  decodeBeats [0x05ffffff00000000, 0xffffffffffffffff] = .instr (.bget 0xffffff 0 0xffffffffffffffff) [] ∧
  decodeBeats [0x0600000000000001, 0x0000000000000000] = .instr (.rdw 0 1 0) [] ∧
  decodeBeats [0x0700000000000008] = .instr (.stat 0 8) [] ∧
  decodeBeats [0xffffffffffffffff, 0x0700000000000000] = .unassigned 0xff [0x0700000000000000] ∧
  decodeBeats [0x0100000000000003] = .incomplete ∧
  decodeBs ⟨0b00, 906⟩ = .bsGet 906 ∧ decodeBs ⟨0b01, 906⟩ = .bsSet 906 ∧
  decodeBs ⟨0b10, 14⟩ = .bsRdw 14 ∧ decodeBs ⟨0b11, 16⟩ = .bsClear 16 ∧
  decodeHp ⟨0, 7, 0, 1, [0x61]⟩ = .hpHash 7 [0x61] ∧ decodeHp ⟨1, 2, 1000, 1, [0x61]⟩ = .hpProbe 2 1000 [0x61]

/-- R57: the length of a frame, by the opcode byte and `ARG` alone; the parser takes exactly that many beats, whatever they
contain, and waits while there are fewer. -/
def Obligations.FrameLengthByOpcodeAndArg : Prop :=
  ∀ (hdr : Beat) (tail : List Beat),
    (tail.length + 1 < frameLen hdr → decodeBeats (hdr :: tail) = .incomplete) ∧
    (frameLen hdr ≤ tail.length + 1 → ∃ rest, rest.length + frameLen hdr = tail.length + 1 ∧
      ((∃ i, decodeBeats (hdr :: tail) = .instr i rest ∧ ∃ body, tail = body ++ rest) ∨
        (0x08 ≤ hdr.toNat / 2 ^ 56 ∧ decodeBeats (hdr :: tail) = .unassigned (opcOf hdr) rest ∧ tail = rest))) ∧
    1 ≤ frameLen hdr ∧ frameLen hdr ≤ 2 + 2 ^ 29 ∧
    (hdr.toNat / 2 ^ 56 = 0x00 ∨ hdr.toNat / 2 ^ 56 = 0x07 → frameLen hdr = 1) ∧
    (hdr.toNat / 2 ^ 56 = 0x01 ∨ hdr.toNat / 2 ^ 56 = 0x05 ∨ hdr.toNat / 2 ^ 56 = 0x06 → frameLen hdr = 2) ∧
    (hdr.toNat / 2 ^ 56 = 0x02 ∨ hdr.toNat / 2 ^ 56 = 0x03 → frameLen hdr = 1 + (hdr.toNat % 2 ^ 32 + 7) / 8) ∧
    (hdr.toNat / 2 ^ 56 = 0x04 → frameLen hdr = 2 + (hdr.toNat % 2 ^ 32 + 7) / 8) ∧
    (0x08 ≤ hdr.toNat / 2 ^ 56 → frameLen hdr = 1)

/-- Decode and encode agree: every instruction that can be encoded, the illegal spellings with `RSV ≠ 0` or `ARG ≠ 0`
included, decodes from its words to itself, with every operand at every value (R52 to R58, R65, R66). -/
def Obligations.DecodeOfEncodeIsIdentity : Prop :=
  ∀ i : Instr, i.encodable = true → decode (encode i) = .instr i []

/-- Frames are self-delimiting (R57, R62): whatever beats follow a command's frame, the decoder reads the command and leaves
them. -/
def Obligations.FramesAreSelfDelimiting : Prop :=
  ∀ (i : Instr) (beats rest : List Beat), i.encodable = true → encode i = .cmd beats →
    decodeBeats (beats ++ rest) = .instr i rest

/-- The other direction (R52 to R57): what the decoder reads as a command takes exactly `frame_len` beats, and encoding it
gives those beats back, header and all: every one of them for a command with no key; for `ADD`, `QRY` and `HASH` (its seed
beat too) every beat but the last payload beat as it was, and that one with the lanes above `ARG mod 8`, which R55 ignores,
masked to 0. -/
def Obligations.EncodeOfDecodeIsTheFrame : Prop :=
  ∀ (hdr : Beat) (tail : List Beat) (i : Instr) (rest : List Beat), decodeBeats (hdr :: tail) = .instr i rest →
    i.encodable = true ∧ ∃ body body', hdr :: tail = hdr :: body ++ rest ∧ body.length + 1 = frameLen hdr ∧
      encode i = .cmd (hdr :: body') ∧ body'.length = body.length ∧ (i.hasKey = false → body' = body) ∧
      (i.hasKey = true → ∀ j, j < body.length → body'[j]? = (body[j]?).map fun b =>
        if j + 1 = body.length ∧ hdr.toNat % 2 ^ 32 % 8 ≠ 0 then
          b &&& BitVec.ofNat 64 (2 ^ (8 * (hdr.toNat % 2 ^ 32 % 8)) - 1)
        else b)

/-- R59, R121: an unassigned opcode takes one beat, answers `ERR_ILLEGAL` with its own byte echoed, and changes nothing else
but `LASTERR`. -/
def Obligations.UnassignedOpcodeIsAnswered : Prop :=
  ∀ (s : State) (hdr : Beat) (rest : List Beat),
    s.rstN = true → s.fatal = false → s.bsReq = none → s.hpReq = none → s.rsp = [] → s.rx = [] →
    s.cmd = hdr :: rest → 0x08 ≤ hdr.toNat / 2 ^ 56 →
      ∃ t, step s = .next t ∧ ({ s with cmd := rest } : State).refusedWith t (BitVec.ofNat 8 (hdr.toNat / 2 ^ 56)) 0x01

/-! ## Steps -/

/-- A step runs the decoded instruction: when the front of the beats taken and offered decodes to `i`, the step is `exec i`
with that frame taken off the command port; and a request on a sub-block's port likewise, with the request taken. What a step
is, is log entry 10 (DEDUCED); that a bit-store request, then a hash request, goes before a waiting response and the command
port is the model's order (log entry 11, DESIGN CHOICE), and that a request on an internal port is served at all is log entry
14 (DESIGN CHOICE). -/
def Obligations.StepRunsTheDecodedInstruction : Prop :=
  ∀ s : State, s.rstN = true → s.fatal = false →
    (∀ i rest, s.bsReq = none → s.hpReq = none → s.rsp = [] → decodeBeats (s.rx ++ s.cmd) = .instr i rest →
      step s = exec i { s with rx := [], cmd := rest }) ∧
    (∀ r, s.bsReq = some r → step s = exec (decodeBs r) { s with bsReq := none }) ∧
    (∀ r, s.bsReq = none → s.hpReq = some r → step s = exec (decodeHp r) { s with hpReq := none })

/-- A step runs exactly the instruction whose words stand on its port, in any state: the meanings reach a run through this
one (R3, R50, R57; R65, R66 for what the requests mean). For the six micro-operations, that a step serves a request placed on
an internal port is the model's choice (log entry 14, DESIGN CHOICE). -/
def Obligations.StepRunsTheEncodedInstruction : Prop :=
  ∀ (i : Instr) (s : State), i.encodable = true →
    step (s.withRequest (encode i)) = exec i (s.withRequest (.cmd []))

/-- R152: inside an incomplete frame the block takes the beats there are, answers nothing, changes no register, and waits
ready, step after step; reset drops them; and the frame runs as if its beats had come at once. That one step takes all the
beats offered of a partial frame, and what the step after it does, is the model's reading of a step (log entry 10, DEDUCED). -/
def Obligations.IncompleteFrameWaits : Prop :=
  ∀ (s : State) (more : List Beat),
    s.rstN = true → s.fatal = false → s.bsReq = none → s.hpReq = none → s.rsp = [] →
    decodeBeats (s.rx ++ s.cmd) = .incomplete →
      ∃ t, step s = .next t ∧ t = { s with rx := s.rx ++ s.cmd, cmd := [] } ∧ t.cmdReady = true ∧
        t.rspValid = false ∧ t.fatalO = false ∧ step t = .next t ∧
        (∃ u, step { t with rstN := false } = .next u ∧ u.rx = []) ∧
        step { t with cmd := more } = step { s with cmd := s.cmd ++ more }

/-- R132, R158: an idle block with nothing offered holds its state, and is ready. -/
def Obligations.IdleBlockHoldsItsState : Prop :=
  ∀ s : State, s.runEnded = true → step s = .next s ∧ s.cmdReady = true ∧ s.rspValid = false ∧ s.fatalO = false

/-- R154, R40: while a response waits, no command beat is taken; a ready host gets its beats one by one in order, and a host
that is not ready stops the block, which loses nothing. That one
step transfers exactly one beat is the model's step (log entry 10, DEDUCED). -/
def Obligations.ResponseGoesBeforeTheNextCommand : Prop :=
  ∀ (s : State) (b : Beat) (bs : List Beat),
    s.rstN = true → s.fatal = false → s.bsReq = none → s.hpReq = none → s.rsp = b :: bs →
      s.cmdReady = false ∧ s.rspValid = true ∧ s.rspData = some b ∧
      (s.rspReady = true → step s = .next { s with rsp := bs, sent := s.sent ++ [b] }) ∧
      (s.rspReady = false → step s = .next s)

/-! ## Errors -/

/-- R127: the code of every command's response is that of the first check that fails, in the table's order, and `OK` when
none does; before them all comes the check that the opcode is assigned. The premise `1 ≤ M` is R23's. -/
def Obligations.FirstFailingCheckGivesTheCode : Prop :=
  (∀ (hdr : Beat) (rest : List Beat) (s : State), 0x08 ≤ hdr.toNat / 2 ^ 56 →
    decodeBeats (hdr :: rest) = .unassigned (opcOf hdr) rest ∧
      s.refusedWith (s.execUnassigned (opcOf hdr)) (opcOf hdr) 0x01) ∧
  (∀ (i : Instr) (s : State), i.isCommand = true → (s.cfgd = true → 1 ≤ s.m.toNat) →
    ∃ t v, exec i s = .next t ∧ s.answered t i.opcByte (firstFailing (checks s i)) v)

/-- R128: an error response goes with no effect at all: value 0, `LASTERR` the code, and the filter as it was. -/
def Obligations.ErrorsHaveNoEffect : Prop :=
  ∀ (i : Instr) (s t : State) (opc code : BitVec 8) (v : Word),
    i.isCommand = true → s.rsp = [] → exec i s = .next t → t.rsp = [opc ++ code ++ 0#48, v] → code ≠ 0 →
      s.refusedWith t opc code

/-! ## Invariants and the whole machine -/

/-- The reset state meets the machine's invariant. -/
def Obligations.ResetMeetsTheInvariant : Prop := State.reset.Inv

/-- The invariant every step keeps: the parameters legal (R6), `M` and `K` in range exactly while a filter exists (R23), the
memory canonical with no word beyond `NW_MAX` (R21), the slack bits zero (R22), `LASTERR` a code (R17), the ports well formed
(R25, R57, R60). -/
def Obligations.EveryStepKeepsTheInvariant : Prop :=
  ∀ s t : State, s.Inv → step s = .next t → t.Inv

/-- R105, R126: with no request on the sub-block's own port, no step ever reaches the fatal state, and every step has a next
state: each command completes (R104, R156). -/
def Obligations.CommandStreamsNeverStop : Prop :=
  ∀ s : State, s.Inv → s.fatal = false → s.bsReq = none →
    ∃ t, step s = .next t ∧ t.fatal = false ∧ t.bsReq = none

/-- R24: no instruction but a successful `CFG` and the raw clear takes a bit away, and none but `ADD` and the raw set changes a
word. -/
def Obligations.BitsOnlyGrow : Prop :=
  ∀ (i : Instr) (s t : State), i.rebuilds s.config = false → exec i s = .next t →
    s.bitsGrow t ∧ ((∀ rsv key, i ≠ .add rsv key) → (∀ pos, i ≠ .bsSet pos) → ∀ w, t.memRead w = s.memRead w)

/-- R15: `M`, `K`, `CFGD`, `NWORDS` change only in a `CFG` that answers `OK`; `LASTERR` only with a response that is not `OK`;
the parameters never. -/
def Obligations.RegistersChangeOnlyAsStated : Prop :=
  ∀ (i : Instr) (s t : State), exec i s = .next t →
    t.config = s.config ∧
    ((∀ rsv m k, i ≠ .cfg rsv m k) ∨ i.rebuilds s.config = false → t.m = s.m ∧ t.k = s.k ∧ t.cfgd = s.cfgd ∧ t.nwords = s.nwords) ∧
    (t.m ≠ s.m ∨ t.k ≠ s.k ∨ t.cfgd ≠ s.cfgd ∨ t.nwords ≠ s.nwords → t.rsp = [0x01#8 ++ 0x00#8 ++ 0#48, 0]) ∧
    (t.lasterr ≠ s.lasterr → ∃ opc : BitVec 8, t.rsp = [opc ++ t.lasterr ++ 0#48, 0] ∧ t.lasterr ≠ 0) ∧
    (t.fatal ≠ s.fatal → t.fatal = true ∧ t.rsp = s.rsp)

/-- R106 (a), (d): no false negatives. After an accepted `ADD key`, whatever instructions follow, as long as none is a
successful `CFG` or a raw clear, `QRY key` answers 1. -/
def Obligations.NoFalseNegatives : Prop :=
  ∀ (key : List Byte) (is : List Instr) (s t : State),
    s.cfgd = true → 1 ≤ s.m.toNat → key.length ≤ s.config.keyMax.toNat →
    (∀ i ∈ is, i.rebuilds s.config = false) → execAll (.add 0 key :: is) s = .next t →
      ∃ u, exec (.qry 0 key) t = .next u ∧ t.answered u 0x03 0x00 1 ∧ t.sameFilter u

/-- R106 (a), (d), at every step: whatever the next step is, as long as it is no reset and executes no successful `CFG` and no
raw clear, a key all of whose probes are set keeps them, in the same geometry. The command port's front matters only where the
step takes it: no request and no response waits. -/
def Obligations.MembershipSurvivesEveryStep : Prop :=
  ∀ (key : List Byte) (s t : State), s.rstN = true → s.cfgd = true → s.holds key →
    (s.bsReq = none → s.hpReq = none → s.rsp = [] →
      ∀ i rest, decodeBeats (s.rx ++ s.cmd) = .instr i rest → i.rebuilds s.config = false) →
    (∀ r, s.bsReq = some r → (decodeBs r).rebuilds s.config = false) → step s = .next t →
      t.holds key ∧ t.cfgd = true ∧ t.m = s.m ∧ t.k = s.k ∧ t.config = s.config

/-- R106 (d), general, and (b): a `QRY` that answered 1 answers 1 again, whatever instructions come between, as long as none
is a successful `CFG` or a raw clear. The premise `1 ≤ M` is R23's. -/
def Obligations.AnsweredYesStaysYes : Prop :=
  ∀ (key : List Byte) (is : List Instr) (s t u : State), (s.cfgd = true → 1 ≤ s.m.toNat) →
    (∀ i ∈ is, i.rebuilds s.config = false) → exec (.qry 0 key) s = .next t → t.rsp = [0x0300000000000000, 1] →
    execAll is t = .next u →
      ∃ v, exec (.qry 0 key) u = .next v ∧ u.answered v 0x03 0x00 1 ∧ u.sameFilter v

/-- R106 (f): between a successful `CFG` and the first `ADD`, every `QRY` answers 0, whatever other instructions come
between. -/
def Obligations.EmptyFilterAnswersNo : Prop :=
  ∀ (m : BitVec 64) (k : BitVec 32) (key : List Byte) (is : List Instr) (s t : State),
    1 ≤ m.toNat → m.toNat ≤ s.config.mMax.toNat → 1 ≤ k.toNat → k.toNat ≤ s.config.kMax.toNat →
    key.length ≤ s.config.keyMax.toNat →
    (∀ i ∈ is, i.rebuilds s.config = false ∧ (∀ rsv x, i ≠ .add rsv x) ∧ ∀ pos, i ≠ .bsSet pos) →
    execAll (.cfg 0 m k :: is) s = .next t →
      ∃ u, exec (.qry 0 key) t = .next u ∧ t.answered u 0x03 0x00 0

/-- R106 (c): adding a key again leaves the same bit pattern. -/
def Obligations.AddIsIdempotent : Prop :=
  ∀ (key : List Byte) (s : State), s.cfgd = true → 1 ≤ s.m.toNat → key.length ≤ s.config.keyMax.toNat →
    ∃ t u, exec (.add 0 key) s = .next t ∧ exec (.add 0 key) t = .next u ∧ t.sameFilter u

/-- R106 (g): the order of two `ADD`s does not show in the filter. -/
def Obligations.AddsCommute : Prop :=
  ∀ (a b : List Byte) (s : State), s.cfgd = true → 1 ≤ s.m.toNat →
    a.length ≤ s.config.keyMax.toNat → b.length ≤ s.config.keyMax.toNat →
    ∃ t u, execAll [.add 0 a, .add 0 b] s = .next t ∧ execAll [.add 0 b, .add 0 a] s = .next u ∧ t.sameFilter u

/-- R106 (e): with `M = 1` and `K = 1`, after any `ADD` every `QRY` answers 1. -/
def Obligations.SingleBitFilterAnswersYes : Prop :=
  ∀ (a b : List Byte) (s : State), s.cfgd = true → s.m = 1 → s.k = 1 →
    a.length ≤ s.config.keyMax.toNat → b.length ≤ s.config.keyMax.toNat →
    ∃ t u, exec (.add 0 a) s = .next t ∧ exec (.qry 0 b) t = .next u ∧ t.answered u 0x03 0x00 1

/-- R106 (b): a `QRY` repeated after observation commands answers the same; R115: none of them can disturb the filter. -/
def Obligations.ObservationDoesNotDisturbQueries : Prop :=
  ∀ (key : List Byte) (is : List Instr) (s t u : State),
    (∀ i ∈ is, i.rebuilds s.config = false ∧ i.isCommand = true ∧ ∀ rsv x, i ≠ .add rsv x) →
    s.cfgd = true → 1 ≤ s.m.toNat → execAll is s = .next t → exec (.qry 0 key) s = .next u →
      ∃ v, exec (.qry 0 key) t = .next v ∧ v.rsp = u.rsp

/-- R86: the laws of the bit store. -/
def Obligations.BitStoreLaws : Prop :=
  ∀ (s : State) (p q : Word), s.cfgd = true → p.toNat < s.m.toNat → q.toNat < s.m.toNat →
    (∃ t, bsSet p s = some t ∧ bsGet p t = some true ∧ (q ≠ p → bsGet q t = bsGet q s) ∧
      (∃ u, bsSet p t = some u ∧ ∀ w, u.memRead w = t.memRead w) ∧
      (∃ t' u u', bsSet q t = some u ∧ bsSet q s = some t' ∧ bsSet p t' = some u' ∧
        ∀ w, u'.memRead w = u.memRead w)) ∧
    bsGet q (bsClear (ceilDiv s.m.toNat 64) s) = some false ∧
    (∃ b, bsGet p s = some b ∧ exec (.bsGet p) s = .next { s with bsRsp := some (.data (if b then 1 else 0)) }) ∧
    (∃ v, bsRdw (BitVec.ofNat 64 (p.toNat / 64)) s = some v ∧
      exec (.bsRdw (BitVec.ofNat 64 (p.toNat / 64))) s = .next { s with bsRsp := some (.data v) } ∧
      bsGet p s = some (decide ((v >>> (p.toNat % 64)) &&& 1 = 1)))

/-- R107: false positives happen. On any instance large enough, a filter of 8 bits and 2 probes that holds `"a"` and `"b"`
answers 1 for `"c"`, which was never added. -/
def Obligations.FalsePositivesHappen : Prop :=
  ∀ s : State, 8 ≤ s.config.mMax.toNat → 2 ≤ s.config.kMax.toNat → 1 ≤ s.config.keyMax.toNat →
    ∃ t, execAll [.cfg 0 8 2, .add 0 [0x61], .add 0 [0x62], .qry 0 [0x63]] s = .next t ∧
      t.rsp = [0x0300000000000000, 1]

/-- R158, R50, R40: a stream of whole frames offered to an idle block with a ready host runs to its end in three steps a
command, one to execute and two to transfer the response: the end is that of the commands executed one after another, every
beat is taken, and the host has received two beats a command. The three steps a command are the model's steps (log entry 10,
DEDUCED). -/
def Obligations.CommandStreamRunsToItsEnd : Prop :=
  ∀ (is : List Instr) (s : State), (∀ i ∈ is, i.isCommand = true ∧ i.encodable = true) → s.Inv → s.runEnded = true →
    s.rspReady = true →
      ∃ t, stepN (3 * is.length) { s with cmd := frames is } = .next t ∧ runCommands is s = .next t ∧
        t.runEnded = true ∧ t.sent.length = s.sent.length + 2 * is.length

/-- R22: in a state of a run, `RDW` of the last word of a filter shows its slack bits as zeros. -/
def Obligations.SlackBitsReadZero : Prop :=
  ∀ (s : State), s.Inv → s.cfgd = true → s.m.toNat % 64 ≠ 0 →
    ∃ t v, exec (.rdw 0 0 (BitVec.ofNat 64 (s.m.toNat / 64))) s = .next t ∧ s.answered t 0x06 0x00 v ∧
      v.toNat < 2 ^ (s.m.toNat % 64)

/-- R21: the words no filter uses cannot be read by any command. Two states that differ only there (or in the ports' own
records) answer every command alike and go on agreeing. In particular no answer depends on the free values of log entry
4. -/
def Obligations.UnusedWordsAreUnreadable : Prop :=
  ∀ (i : Instr) (s t s' : State), i.isCommand = true → s.Inv → t.Inv → s.agree t → exec i s = .next s' →
    ∃ t', exec i t = .next t' ∧ t'.rsp = s'.rsp ∧ s'.agree t'

/-- R64: `NEW` and `CONTAINS` are other names of `CFG` and `QRY`, whatever follows them on the line. -/
def Obligations.PseudoInstructionsExpand : Prop :=
  ∀ rest : List Char,
    parseLine ('N' :: 'E' :: 'W' :: ' ' :: rest) = parseLine ('C' :: 'F' :: 'G' :: ' ' :: rest) ∧
    parseLine ('C' :: 'O' :: 'N' :: 'T' :: 'A' :: 'I' :: 'N' :: 'S' :: ' ' :: rest) =
      parseLine ('Q' :: 'R' :: 'Y' :: ' ' :: rest)
end

