-- ==== Sys2Proof/Laws/Decode.lean ====
section
/-! SUPPORT. The header's fields, the key's lanes, and the lengths of frames: what the round trip between words and
instructions is made of. -/

namespace Sys2Proof

/-! ## Header fields (R52) -/

@[simp] theorem opcOf_header (o : Opcode) (r : BitVec 24) (a : BitVec 32) : opcOf (header o r a) = o.byte := by
  apply BitVec.eq_of_getLsbD_eq
  intro i hi
  simp only [opcOf, header, BitVec.getLsbD_extractLsb', BitVec.getLsbD_append, hi]
  simp only [show ¬ (56 + i < 32) by omega, show ¬ (56 + i - 32 < 24) by omega,
    show 56 + i - 32 - 24 = i by omega]
  simp

@[simp] theorem rsvOf_header (o : Opcode) (r : BitVec 24) (a : BitVec 32) : rsvOf (header o r a) = r := by
  apply BitVec.eq_of_getLsbD_eq
  intro i hi
  simp only [rsvOf, header, BitVec.getLsbD_extractLsb', BitVec.getLsbD_append, hi]
  simp only [show ¬ (32 + i < 32) by omega, show 32 + i - 32 = i by omega]
  simp [hi]

@[simp] theorem argOf_header (o : Opcode) (r : BitVec 24) (a : BitVec 32) : argOf (header o r a) = a := by
  apply BitVec.eq_of_getLsbD_eq
  intro i hi
  simp only [argOf, header, BitVec.getLsbD_extractLsb', BitVec.getLsbD_append, hi]
  simp [hi]

@[simp] theorem Opcode.ofByte_byte (o : Opcode) : Opcode.ofByte o.byte = some o := by cases o <;> rfl

/-- The only byte that names an opcode is its own. -/
theorem Opcode.byte_of_ofByte {b : BitVec 8} {o : Opcode} (h : Opcode.ofByte b = some o) : o.byte = b := by
  unfold Opcode.ofByte at h
  repeat' split at h
  all_goals first | cases h; simp_all [Opcode.byte] | cases h

/-- A beat is its own fields (R52). -/
theorem header_fields (h : Beat) {o : Opcode} (ho : opcOf h = o.byte) : header o (rsvOf h) (argOf h) = h := by
  apply BitVec.eq_of_getLsbD_eq
  intro i hi
  rw [header, ← ho]
  simp only [opcOf, rsvOf, argOf, BitVec.getLsbD_extractLsb', BitVec.getLsbD_append]
  by_cases h1 : i < 32
  · simp [h1]
  · by_cases h2 : i - 32 < 24
    · simp [h1, h2, show 32 + (i - 32) = i by omega]
    · simp [h1, h2, show 56 + (i - 32 - 24) = i by omega, show i - 32 - 24 < 8 by omega]

/-! ## Frame lengths (R57) -/

@[simp] theorem frameLen_header (o : Opcode) (r : BitVec 24) (a : BitVec 32) :
    frameLen (header o r a) = o.format.beats a := by simp [frameLen]

theorem frameLen_of_ofByte {h : Beat} {o : Opcode} (ho : Opcode.ofByte (opcOf h) = some o) :
    frameLen h = o.format.beats (argOf h) := by rw [frameLen, ho]

theorem header_of_ofByte {h : Beat} {o : Opcode} (ho : Opcode.ofByte (opcOf h) = some o) :
    header o (rsvOf h) (argOf h) = h := header_fields h (Opcode.byte_of_ofByte ho).symm

theorem frameLen_pos (h : Beat) : 1 ≤ frameLen h := by
  unfold frameLen
  split
  · rename_i o _
    cases o <;> simp [Opcode.format, Format.beats]
    omega
  · exact le_rfl

/-- `OPC` is the top byte (R52). -/
theorem opcOf_toNat (h : Beat) : (opcOf h).toNat = h.toNat / 2 ^ 56 := by
  have := h.isLt
  rw [opcOf, BitVec.extractLsb'_toNat, Nat.shiftRight_eq_div_pow]
  omega

/-- `ARG` is the low 32 bits (R52). -/
theorem argOf_toNat (h : Beat) : (argOf h).toNat = h.toNat % 2 ^ 32 := by
  rw [argOf, BitVec.extractLsb'_toNat]
  simp

/-! ## Byte lanes (R31, R55) -/

theorem leNat_lt (bs : List Byte) : leNat bs < 256 ^ bs.length := by
  induction bs with
  | nil => simp [leNat]
  | cons b bs ih =>
    have := b.isLt
    simp only [leNat, List.length_cons, pow_succ]
    omega

theorem leNat_div (bs : List Byte) (j : Nat) (hj : j < bs.length) : leNat bs / 256 ^ j % 256 = (bs[j]).toNat := by
  induction bs generalizing j with
  | nil => simp at hj
  | cons b bs ih =>
    have := b.isLt
    cases j with
    | zero => simp only [leNat, pow_zero, Nat.div_one, List.getElem_cons_zero]; omega
    | succ j =>
      rw [List.getElem_cons_succ, ← ih j (by simpa using hj), pow_succ, Nat.mul_comm, ← Nat.div_div_eq_div_mul]
      congr 2
      simp only [leNat]; omega

theorem leWord_toNat (bs : List Byte) (h : bs.length ≤ 8) : (leWord bs).toNat = leNat bs := by
  rw [leWord, BitVec.toNat_ofNat]
  refine Nat.mod_eq_of_lt (Nat.lt_of_lt_of_le (leNat_lt bs) ?_)
  calc 256 ^ bs.length ≤ 256 ^ 8 := Nat.pow_le_pow_right (by decide) h
    _ = 2 ^ 64 := by decide

theorem laneOf_toNat (b : Beat) (j : Nat) : (laneOf b j).toNat = b.toNat / 256 ^ j % 256 := by
  rw [laneOf, BitVec.extractLsb'_toNat, Nat.shiftRight_eq_div_pow, pow_mul]; rfl

/-- Lane `j` of a packed word is its byte `j`. -/
theorem laneOf_leWord (bs : List Byte) (h : bs.length ≤ 8) (j : Nat) (hj : j < bs.length) :
    laneOf (leWord bs) j = bs[j] := by
  apply BitVec.eq_of_toNat_eq
  rw [laneOf_toNat, leWord_toNat bs h, leNat_div bs j hj]

theorem keySlice_length (key : List Byte) (q : Nat) : (keySlice key q).length = min 8 (key.length - 8 * q) := by
  simp [keySlice]

@[simp] theorem packKey_length (key : List Byte) : (packKey key).length = ceilDiv key.length 8 := by simp [packKey]

@[simp] theorem keyBytes_length (n : Nat) (beats : List Beat) : (keyBytes n beats).length = n := by simp [keyBytes]

/-- The bytes of a key are the bytes of its beats (R55), whatever beats follow. -/
theorem keyBytes_packKey (key : List Byte) (rest : List Beat) : keyBytes key.length (packKey key ++ rest) = key := by
  apply List.ext_getElem
  · simp
  · intro j h1 h2
    have hq : j / 8 < ceilDiv key.length 8 := by unfold ceilDiv; omega
    have hl : j % 8 < (keySlice key (j / 8)).length := by rw [keySlice_length]; omega
    have h8 : (keySlice key (j / 8)).length ≤ 8 := by rw [keySlice_length]; omega
    have hg : (packKey key ++ rest).getD (j / 8) (Config.staleKeyBeat (j / 8)) = leWord (keySlice key (j / 8)) := by
      rw [List.getD_eq_getElem?_getD, List.getElem?_append_left (by simpa using hq)]
      simp [packKey, hq]
    have hb : (keySlice key (j / 8))[j % 8] = key[j] := by
      simp only [keySlice, List.getElem_take, List.getElem_drop]
      congr 1; omega
    simp only [keyBytes, List.getElem_map, List.getElem_range]
    rw [hg, laneOf_leWord _ h8 _ hl, hb]

theorem lenField_toNat {key : List Byte} (h : keyFits key = true) : (lenField key).toNat = key.length := by
  rw [lenField, BitVec.toNat_ofNat]
  exact Nat.mod_eq_of_lt (by simpa [keyFits] using h)

end Sys2Proof
end

