-- ==== Sys2Proof/Laws/State.lean ====
section
/-! SUPPORT. One lemma per field per named update, so that no proof unfolds a record update; and what each update does to
the reads over memory. -/

namespace Sys2Proof.Machine

/-! ## `memWrite` -/

@[simp] theorem State.memWrite_m (s : State) (w : Nat) (v : Word) : (s.memWrite w v).m = s.m := rfl
@[simp] theorem State.memWrite_k (s : State) (w : Nat) (v : Word) : (s.memWrite w v).k = s.k := rfl
@[simp] theorem State.memWrite_bits (s : State) (w : Nat) (v : Word) : (s.memWrite w v).bits = Memory.write s.bits w v := rfl
@[simp] theorem State.memWrite_cfgd (s : State) (w : Nat) (v : Word) : (s.memWrite w v).cfgd = s.cfgd := rfl
@[simp] theorem State.memWrite_fatal (s : State) (w : Nat) (v : Word) : (s.memWrite w v).fatal = s.fatal := rfl
@[simp] theorem State.memWrite_lasterr (s : State) (w : Nat) (v : Word) : (s.memWrite w v).lasterr = s.lasterr := rfl
@[simp] theorem State.memWrite_config (s : State) (w : Nat) (v : Word) : (s.memWrite w v).config = s.config := rfl
@[simp] theorem State.memWrite_rstN (s : State) (w : Nat) (v : Word) : (s.memWrite w v).rstN = s.rstN := rfl
@[simp] theorem State.memWrite_rspReady (s : State) (w : Nat) (v : Word) : (s.memWrite w v).rspReady = s.rspReady := rfl
@[simp] theorem State.memWrite_cmd (s : State) (w : Nat) (v : Word) : (s.memWrite w v).cmd = s.cmd := rfl
@[simp] theorem State.memWrite_rx (s : State) (w : Nat) (v : Word) : (s.memWrite w v).rx = s.rx := rfl
@[simp] theorem State.memWrite_rsp (s : State) (w : Nat) (v : Word) : (s.memWrite w v).rsp = s.rsp := rfl
@[simp] theorem State.memWrite_sent (s : State) (w : Nat) (v : Word) : (s.memWrite w v).sent = s.sent := rfl
@[simp] theorem State.memWrite_bsReq (s : State) (w : Nat) (v : Word) : (s.memWrite w v).bsReq = s.bsReq := rfl
@[simp] theorem State.memWrite_bsRsp (s : State) (w : Nat) (v : Word) : (s.memWrite w v).bsRsp = s.bsRsp := rfl
@[simp] theorem State.memWrite_hpReq (s : State) (w : Nat) (v : Word) : (s.memWrite w v).hpReq = s.hpReq := rfl
@[simp] theorem State.memWrite_hpRsp (s : State) (w : Nat) (v : Word) : (s.memWrite w v).hpRsp = s.hpRsp := rfl
@[simp] theorem State.memWrite_epoch (s : State) (w : Nat) (v : Word) : (s.memWrite w v).epoch = s.epoch := rfl

/-! ## `memClear` -/

@[simp] theorem State.memClear_m (s : State) (n : Nat) : (s.memClear n).m = s.m := rfl
@[simp] theorem State.memClear_k (s : State) (n : Nat) : (s.memClear n).k = s.k := rfl
@[simp] theorem State.memClear_bits (s : State) (n : Nat) : (s.memClear n).bits = Memory.clear s.bits n := rfl
@[simp] theorem State.memClear_cfgd (s : State) (n : Nat) : (s.memClear n).cfgd = s.cfgd := rfl
@[simp] theorem State.memClear_fatal (s : State) (n : Nat) : (s.memClear n).fatal = s.fatal := rfl
@[simp] theorem State.memClear_lasterr (s : State) (n : Nat) : (s.memClear n).lasterr = s.lasterr := rfl
@[simp] theorem State.memClear_config (s : State) (n : Nat) : (s.memClear n).config = s.config := rfl
@[simp] theorem State.memClear_rstN (s : State) (n : Nat) : (s.memClear n).rstN = s.rstN := rfl
@[simp] theorem State.memClear_rspReady (s : State) (n : Nat) : (s.memClear n).rspReady = s.rspReady := rfl
@[simp] theorem State.memClear_cmd (s : State) (n : Nat) : (s.memClear n).cmd = s.cmd := rfl
@[simp] theorem State.memClear_rx (s : State) (n : Nat) : (s.memClear n).rx = s.rx := rfl
@[simp] theorem State.memClear_rsp (s : State) (n : Nat) : (s.memClear n).rsp = s.rsp := rfl
@[simp] theorem State.memClear_sent (s : State) (n : Nat) : (s.memClear n).sent = s.sent := rfl
@[simp] theorem State.memClear_bsReq (s : State) (n : Nat) : (s.memClear n).bsReq = s.bsReq := rfl
@[simp] theorem State.memClear_bsRsp (s : State) (n : Nat) : (s.memClear n).bsRsp = s.bsRsp := rfl
@[simp] theorem State.memClear_hpReq (s : State) (n : Nat) : (s.memClear n).hpReq = s.hpReq := rfl
@[simp] theorem State.memClear_hpRsp (s : State) (n : Nat) : (s.memClear n).hpRsp = s.hpRsp := rfl
@[simp] theorem State.memClear_epoch (s : State) (n : Nat) : (s.memClear n).epoch = s.epoch := rfl

/-! ## `setGeometry` -/

@[simp] theorem State.setGeometry_m (s : State) (m : BitVec 64) (k : BitVec 32) : (s.setGeometry m k).m = m := rfl
@[simp] theorem State.setGeometry_k (s : State) (m : BitVec 64) (k : BitVec 32) : (s.setGeometry m k).k = k := rfl
@[simp] theorem State.setGeometry_bits (s : State) (m : BitVec 64) (k : BitVec 32) : (s.setGeometry m k).bits = s.bits := rfl
@[simp] theorem State.setGeometry_cfgd (s : State) (m : BitVec 64) (k : BitVec 32) : (s.setGeometry m k).cfgd = s.cfgd := rfl
@[simp] theorem State.setGeometry_fatal (s : State) (m : BitVec 64) (k : BitVec 32) : (s.setGeometry m k).fatal = s.fatal := rfl
@[simp] theorem State.setGeometry_lasterr (s : State) (m : BitVec 64) (k : BitVec 32) : (s.setGeometry m k).lasterr = s.lasterr := rfl
@[simp] theorem State.setGeometry_config (s : State) (m : BitVec 64) (k : BitVec 32) : (s.setGeometry m k).config = s.config := rfl
@[simp] theorem State.setGeometry_rstN (s : State) (m : BitVec 64) (k : BitVec 32) : (s.setGeometry m k).rstN = s.rstN := rfl
@[simp] theorem State.setGeometry_rspReady (s : State) (m : BitVec 64) (k : BitVec 32) : (s.setGeometry m k).rspReady = s.rspReady := rfl
@[simp] theorem State.setGeometry_cmd (s : State) (m : BitVec 64) (k : BitVec 32) : (s.setGeometry m k).cmd = s.cmd := rfl
@[simp] theorem State.setGeometry_rx (s : State) (m : BitVec 64) (k : BitVec 32) : (s.setGeometry m k).rx = s.rx := rfl
@[simp] theorem State.setGeometry_rsp (s : State) (m : BitVec 64) (k : BitVec 32) : (s.setGeometry m k).rsp = s.rsp := rfl
@[simp] theorem State.setGeometry_sent (s : State) (m : BitVec 64) (k : BitVec 32) : (s.setGeometry m k).sent = s.sent := rfl
@[simp] theorem State.setGeometry_bsReq (s : State) (m : BitVec 64) (k : BitVec 32) : (s.setGeometry m k).bsReq = s.bsReq := rfl
@[simp] theorem State.setGeometry_bsRsp (s : State) (m : BitVec 64) (k : BitVec 32) : (s.setGeometry m k).bsRsp = s.bsRsp := rfl
@[simp] theorem State.setGeometry_hpReq (s : State) (m : BitVec 64) (k : BitVec 32) : (s.setGeometry m k).hpReq = s.hpReq := rfl
@[simp] theorem State.setGeometry_hpRsp (s : State) (m : BitVec 64) (k : BitVec 32) : (s.setGeometry m k).hpRsp = s.hpRsp := rfl
@[simp] theorem State.setGeometry_epoch (s : State) (m : BitVec 64) (k : BitVec 32) : (s.setGeometry m k).epoch = s.epoch := rfl

/-! ## `setCfgd` -/

@[simp] theorem State.setCfgd_m (s : State) : (s.setCfgd).m = s.m := rfl
@[simp] theorem State.setCfgd_k (s : State) : (s.setCfgd).k = s.k := rfl
@[simp] theorem State.setCfgd_bits (s : State) : (s.setCfgd).bits = s.bits := rfl
@[simp] theorem State.setCfgd_cfgd (s : State) : (s.setCfgd).cfgd = true := rfl
@[simp] theorem State.setCfgd_fatal (s : State) : (s.setCfgd).fatal = s.fatal := rfl
@[simp] theorem State.setCfgd_lasterr (s : State) : (s.setCfgd).lasterr = s.lasterr := rfl
@[simp] theorem State.setCfgd_config (s : State) : (s.setCfgd).config = s.config := rfl
@[simp] theorem State.setCfgd_rstN (s : State) : (s.setCfgd).rstN = s.rstN := rfl
@[simp] theorem State.setCfgd_rspReady (s : State) : (s.setCfgd).rspReady = s.rspReady := rfl
@[simp] theorem State.setCfgd_cmd (s : State) : (s.setCfgd).cmd = s.cmd := rfl
@[simp] theorem State.setCfgd_rx (s : State) : (s.setCfgd).rx = s.rx := rfl
@[simp] theorem State.setCfgd_rsp (s : State) : (s.setCfgd).rsp = s.rsp := rfl
@[simp] theorem State.setCfgd_sent (s : State) : (s.setCfgd).sent = s.sent := rfl
@[simp] theorem State.setCfgd_bsReq (s : State) : (s.setCfgd).bsReq = s.bsReq := rfl
@[simp] theorem State.setCfgd_bsRsp (s : State) : (s.setCfgd).bsRsp = s.bsRsp := rfl
@[simp] theorem State.setCfgd_hpReq (s : State) : (s.setCfgd).hpReq = s.hpReq := rfl
@[simp] theorem State.setCfgd_hpRsp (s : State) : (s.setCfgd).hpRsp = s.hpRsp := rfl
@[simp] theorem State.setCfgd_epoch (s : State) : (s.setCfgd).epoch = s.epoch := rfl

/-! ## `respond` -/

@[simp] theorem State.respond_m (s : State) (o : BitVec 8) (c : Code) (v : Word) : (s.respond o c v).m = s.m := rfl
@[simp] theorem State.respond_k (s : State) (o : BitVec 8) (c : Code) (v : Word) : (s.respond o c v).k = s.k := rfl
@[simp] theorem State.respond_bits (s : State) (o : BitVec 8) (c : Code) (v : Word) : (s.respond o c v).bits = s.bits := rfl
@[simp] theorem State.respond_cfgd (s : State) (o : BitVec 8) (c : Code) (v : Word) : (s.respond o c v).cfgd = s.cfgd := rfl
@[simp] theorem State.respond_fatal (s : State) (o : BitVec 8) (c : Code) (v : Word) : (s.respond o c v).fatal = s.fatal := rfl
@[simp] theorem State.respond_lasterr (s : State) (o : BitVec 8) (c : Code) (v : Word) : (s.respond o c v).lasterr = lasterrAfter c s.lasterr := rfl
@[simp] theorem State.respond_config (s : State) (o : BitVec 8) (c : Code) (v : Word) : (s.respond o c v).config = s.config := rfl
@[simp] theorem State.respond_rstN (s : State) (o : BitVec 8) (c : Code) (v : Word) : (s.respond o c v).rstN = s.rstN := rfl
@[simp] theorem State.respond_rspReady (s : State) (o : BitVec 8) (c : Code) (v : Word) : (s.respond o c v).rspReady = s.rspReady := rfl
@[simp] theorem State.respond_cmd (s : State) (o : BitVec 8) (c : Code) (v : Word) : (s.respond o c v).cmd = s.cmd := rfl
@[simp] theorem State.respond_rx (s : State) (o : BitVec 8) (c : Code) (v : Word) : (s.respond o c v).rx = s.rx := rfl
@[simp] theorem State.respond_rsp (s : State) (o : BitVec 8) (c : Code) (v : Word) : (s.respond o c v).rsp = [rsp0 o c, if c = .ok then v else 0] := rfl
@[simp] theorem State.respond_sent (s : State) (o : BitVec 8) (c : Code) (v : Word) : (s.respond o c v).sent = s.sent := rfl
@[simp] theorem State.respond_bsReq (s : State) (o : BitVec 8) (c : Code) (v : Word) : (s.respond o c v).bsReq = s.bsReq := rfl
@[simp] theorem State.respond_bsRsp (s : State) (o : BitVec 8) (c : Code) (v : Word) : (s.respond o c v).bsRsp = s.bsRsp := rfl
@[simp] theorem State.respond_hpReq (s : State) (o : BitVec 8) (c : Code) (v : Word) : (s.respond o c v).hpReq = s.hpReq := rfl
@[simp] theorem State.respond_hpRsp (s : State) (o : BitVec 8) (c : Code) (v : Word) : (s.respond o c v).hpRsp = s.hpRsp := rfl
@[simp] theorem State.respond_epoch (s : State) (o : BitVec 8) (c : Code) (v : Word) : (s.respond o c v).epoch = s.epoch := rfl

/-! ## `raiseFatal` -/

@[simp] theorem State.raiseFatal_m (s : State) : (s.raiseFatal).m = s.m := rfl
@[simp] theorem State.raiseFatal_k (s : State) : (s.raiseFatal).k = s.k := rfl
@[simp] theorem State.raiseFatal_bits (s : State) : (s.raiseFatal).bits = s.bits := rfl
@[simp] theorem State.raiseFatal_cfgd (s : State) : (s.raiseFatal).cfgd = s.cfgd := rfl
@[simp] theorem State.raiseFatal_fatal (s : State) : (s.raiseFatal).fatal = true := rfl
@[simp] theorem State.raiseFatal_lasterr (s : State) : (s.raiseFatal).lasterr = s.lasterr := rfl
@[simp] theorem State.raiseFatal_config (s : State) : (s.raiseFatal).config = s.config := rfl
@[simp] theorem State.raiseFatal_rstN (s : State) : (s.raiseFatal).rstN = s.rstN := rfl
@[simp] theorem State.raiseFatal_rspReady (s : State) : (s.raiseFatal).rspReady = s.rspReady := rfl
@[simp] theorem State.raiseFatal_cmd (s : State) : (s.raiseFatal).cmd = s.cmd := rfl
@[simp] theorem State.raiseFatal_rx (s : State) : (s.raiseFatal).rx = s.rx := rfl
@[simp] theorem State.raiseFatal_rsp (s : State) : (s.raiseFatal).rsp = s.rsp := rfl
@[simp] theorem State.raiseFatal_sent (s : State) : (s.raiseFatal).sent = s.sent := rfl
@[simp] theorem State.raiseFatal_bsReq (s : State) : (s.raiseFatal).bsReq = s.bsReq := rfl
@[simp] theorem State.raiseFatal_bsRsp (s : State) : (s.raiseFatal).bsRsp = s.bsRsp := rfl
@[simp] theorem State.raiseFatal_hpReq (s : State) : (s.raiseFatal).hpReq = s.hpReq := rfl
@[simp] theorem State.raiseFatal_hpRsp (s : State) : (s.raiseFatal).hpRsp = s.hpRsp := rfl
@[simp] theorem State.raiseFatal_epoch (s : State) : (s.raiseFatal).epoch = s.epoch := rfl

/-! ## `setBsRsp` -/

@[simp] theorem State.setBsRsp_m (s : State) (r : BsRsp) : (s.setBsRsp r).m = s.m := rfl
@[simp] theorem State.setBsRsp_k (s : State) (r : BsRsp) : (s.setBsRsp r).k = s.k := rfl
@[simp] theorem State.setBsRsp_bits (s : State) (r : BsRsp) : (s.setBsRsp r).bits = s.bits := rfl
@[simp] theorem State.setBsRsp_cfgd (s : State) (r : BsRsp) : (s.setBsRsp r).cfgd = s.cfgd := rfl
@[simp] theorem State.setBsRsp_fatal (s : State) (r : BsRsp) : (s.setBsRsp r).fatal = s.fatal := rfl
@[simp] theorem State.setBsRsp_lasterr (s : State) (r : BsRsp) : (s.setBsRsp r).lasterr = s.lasterr := rfl
@[simp] theorem State.setBsRsp_config (s : State) (r : BsRsp) : (s.setBsRsp r).config = s.config := rfl
@[simp] theorem State.setBsRsp_rstN (s : State) (r : BsRsp) : (s.setBsRsp r).rstN = s.rstN := rfl
@[simp] theorem State.setBsRsp_rspReady (s : State) (r : BsRsp) : (s.setBsRsp r).rspReady = s.rspReady := rfl
@[simp] theorem State.setBsRsp_cmd (s : State) (r : BsRsp) : (s.setBsRsp r).cmd = s.cmd := rfl
@[simp] theorem State.setBsRsp_rx (s : State) (r : BsRsp) : (s.setBsRsp r).rx = s.rx := rfl
@[simp] theorem State.setBsRsp_rsp (s : State) (r : BsRsp) : (s.setBsRsp r).rsp = s.rsp := rfl
@[simp] theorem State.setBsRsp_sent (s : State) (r : BsRsp) : (s.setBsRsp r).sent = s.sent := rfl
@[simp] theorem State.setBsRsp_bsReq (s : State) (r : BsRsp) : (s.setBsRsp r).bsReq = s.bsReq := rfl
@[simp] theorem State.setBsRsp_bsRsp (s : State) (r : BsRsp) : (s.setBsRsp r).bsRsp = some r := rfl
@[simp] theorem State.setBsRsp_hpReq (s : State) (r : BsRsp) : (s.setBsRsp r).hpReq = s.hpReq := rfl
@[simp] theorem State.setBsRsp_hpRsp (s : State) (r : BsRsp) : (s.setBsRsp r).hpRsp = s.hpRsp := rfl
@[simp] theorem State.setBsRsp_epoch (s : State) (r : BsRsp) : (s.setBsRsp r).epoch = s.epoch := rfl

/-! ## `setHpRsp` -/

@[simp] theorem State.setHpRsp_m (s : State) (v : Word) : (s.setHpRsp v).m = s.m := rfl
@[simp] theorem State.setHpRsp_k (s : State) (v : Word) : (s.setHpRsp v).k = s.k := rfl
@[simp] theorem State.setHpRsp_bits (s : State) (v : Word) : (s.setHpRsp v).bits = s.bits := rfl
@[simp] theorem State.setHpRsp_cfgd (s : State) (v : Word) : (s.setHpRsp v).cfgd = s.cfgd := rfl
@[simp] theorem State.setHpRsp_fatal (s : State) (v : Word) : (s.setHpRsp v).fatal = s.fatal := rfl
@[simp] theorem State.setHpRsp_lasterr (s : State) (v : Word) : (s.setHpRsp v).lasterr = s.lasterr := rfl
@[simp] theorem State.setHpRsp_config (s : State) (v : Word) : (s.setHpRsp v).config = s.config := rfl
@[simp] theorem State.setHpRsp_rstN (s : State) (v : Word) : (s.setHpRsp v).rstN = s.rstN := rfl
@[simp] theorem State.setHpRsp_rspReady (s : State) (v : Word) : (s.setHpRsp v).rspReady = s.rspReady := rfl
@[simp] theorem State.setHpRsp_cmd (s : State) (v : Word) : (s.setHpRsp v).cmd = s.cmd := rfl
@[simp] theorem State.setHpRsp_rx (s : State) (v : Word) : (s.setHpRsp v).rx = s.rx := rfl
@[simp] theorem State.setHpRsp_rsp (s : State) (v : Word) : (s.setHpRsp v).rsp = s.rsp := rfl
@[simp] theorem State.setHpRsp_sent (s : State) (v : Word) : (s.setHpRsp v).sent = s.sent := rfl
@[simp] theorem State.setHpRsp_bsReq (s : State) (v : Word) : (s.setHpRsp v).bsReq = s.bsReq := rfl
@[simp] theorem State.setHpRsp_bsRsp (s : State) (v : Word) : (s.setHpRsp v).bsRsp = s.bsRsp := rfl
@[simp] theorem State.setHpRsp_hpReq (s : State) (v : Word) : (s.setHpRsp v).hpReq = s.hpReq := rfl
@[simp] theorem State.setHpRsp_hpRsp (s : State) (v : Word) : (s.setHpRsp v).hpRsp = some v := rfl
@[simp] theorem State.setHpRsp_epoch (s : State) (v : Word) : (s.setHpRsp v).epoch = s.epoch := rfl

/-! ## `takeBsReq` -/

@[simp] theorem State.takeBsReq_m (s : State) : (s.takeBsReq).m = s.m := rfl
@[simp] theorem State.takeBsReq_k (s : State) : (s.takeBsReq).k = s.k := rfl
@[simp] theorem State.takeBsReq_bits (s : State) : (s.takeBsReq).bits = s.bits := rfl
@[simp] theorem State.takeBsReq_cfgd (s : State) : (s.takeBsReq).cfgd = s.cfgd := rfl
@[simp] theorem State.takeBsReq_fatal (s : State) : (s.takeBsReq).fatal = s.fatal := rfl
@[simp] theorem State.takeBsReq_lasterr (s : State) : (s.takeBsReq).lasterr = s.lasterr := rfl
@[simp] theorem State.takeBsReq_config (s : State) : (s.takeBsReq).config = s.config := rfl
@[simp] theorem State.takeBsReq_rstN (s : State) : (s.takeBsReq).rstN = s.rstN := rfl
@[simp] theorem State.takeBsReq_rspReady (s : State) : (s.takeBsReq).rspReady = s.rspReady := rfl
@[simp] theorem State.takeBsReq_cmd (s : State) : (s.takeBsReq).cmd = s.cmd := rfl
@[simp] theorem State.takeBsReq_rx (s : State) : (s.takeBsReq).rx = s.rx := rfl
@[simp] theorem State.takeBsReq_rsp (s : State) : (s.takeBsReq).rsp = s.rsp := rfl
@[simp] theorem State.takeBsReq_sent (s : State) : (s.takeBsReq).sent = s.sent := rfl
@[simp] theorem State.takeBsReq_bsReq (s : State) : (s.takeBsReq).bsReq = none := rfl
@[simp] theorem State.takeBsReq_bsRsp (s : State) : (s.takeBsReq).bsRsp = s.bsRsp := rfl
@[simp] theorem State.takeBsReq_hpReq (s : State) : (s.takeBsReq).hpReq = s.hpReq := rfl
@[simp] theorem State.takeBsReq_hpRsp (s : State) : (s.takeBsReq).hpRsp = s.hpRsp := rfl
@[simp] theorem State.takeBsReq_epoch (s : State) : (s.takeBsReq).epoch = s.epoch := rfl

/-! ## `takeHpReq` -/

@[simp] theorem State.takeHpReq_m (s : State) : (s.takeHpReq).m = s.m := rfl
@[simp] theorem State.takeHpReq_k (s : State) : (s.takeHpReq).k = s.k := rfl
@[simp] theorem State.takeHpReq_bits (s : State) : (s.takeHpReq).bits = s.bits := rfl
@[simp] theorem State.takeHpReq_cfgd (s : State) : (s.takeHpReq).cfgd = s.cfgd := rfl
@[simp] theorem State.takeHpReq_fatal (s : State) : (s.takeHpReq).fatal = s.fatal := rfl
@[simp] theorem State.takeHpReq_lasterr (s : State) : (s.takeHpReq).lasterr = s.lasterr := rfl
@[simp] theorem State.takeHpReq_config (s : State) : (s.takeHpReq).config = s.config := rfl
@[simp] theorem State.takeHpReq_rstN (s : State) : (s.takeHpReq).rstN = s.rstN := rfl
@[simp] theorem State.takeHpReq_rspReady (s : State) : (s.takeHpReq).rspReady = s.rspReady := rfl
@[simp] theorem State.takeHpReq_cmd (s : State) : (s.takeHpReq).cmd = s.cmd := rfl
@[simp] theorem State.takeHpReq_rx (s : State) : (s.takeHpReq).rx = s.rx := rfl
@[simp] theorem State.takeHpReq_rsp (s : State) : (s.takeHpReq).rsp = s.rsp := rfl
@[simp] theorem State.takeHpReq_sent (s : State) : (s.takeHpReq).sent = s.sent := rfl
@[simp] theorem State.takeHpReq_bsReq (s : State) : (s.takeHpReq).bsReq = s.bsReq := rfl
@[simp] theorem State.takeHpReq_bsRsp (s : State) : (s.takeHpReq).bsRsp = s.bsRsp := rfl
@[simp] theorem State.takeHpReq_hpReq (s : State) : (s.takeHpReq).hpReq = none := rfl
@[simp] theorem State.takeHpReq_hpRsp (s : State) : (s.takeHpReq).hpRsp = s.hpRsp := rfl
@[simp] theorem State.takeHpReq_epoch (s : State) : (s.takeHpReq).epoch = s.epoch := rfl

/-! ## `takeFrame` -/

@[simp] theorem State.takeFrame_m (s : State) (r : List Beat) : (s.takeFrame r).m = s.m := rfl
@[simp] theorem State.takeFrame_k (s : State) (r : List Beat) : (s.takeFrame r).k = s.k := rfl
@[simp] theorem State.takeFrame_bits (s : State) (r : List Beat) : (s.takeFrame r).bits = s.bits := rfl
@[simp] theorem State.takeFrame_cfgd (s : State) (r : List Beat) : (s.takeFrame r).cfgd = s.cfgd := rfl
@[simp] theorem State.takeFrame_fatal (s : State) (r : List Beat) : (s.takeFrame r).fatal = s.fatal := rfl
@[simp] theorem State.takeFrame_lasterr (s : State) (r : List Beat) : (s.takeFrame r).lasterr = s.lasterr := rfl
@[simp] theorem State.takeFrame_config (s : State) (r : List Beat) : (s.takeFrame r).config = s.config := rfl
@[simp] theorem State.takeFrame_rstN (s : State) (r : List Beat) : (s.takeFrame r).rstN = s.rstN := rfl
@[simp] theorem State.takeFrame_rspReady (s : State) (r : List Beat) : (s.takeFrame r).rspReady = s.rspReady := rfl
@[simp] theorem State.takeFrame_cmd (s : State) (r : List Beat) : (s.takeFrame r).cmd = r := rfl
@[simp] theorem State.takeFrame_rx (s : State) (r : List Beat) : (s.takeFrame r).rx = [] := rfl
@[simp] theorem State.takeFrame_rsp (s : State) (r : List Beat) : (s.takeFrame r).rsp = s.rsp := rfl
@[simp] theorem State.takeFrame_sent (s : State) (r : List Beat) : (s.takeFrame r).sent = s.sent := rfl
@[simp] theorem State.takeFrame_bsReq (s : State) (r : List Beat) : (s.takeFrame r).bsReq = s.bsReq := rfl
@[simp] theorem State.takeFrame_bsRsp (s : State) (r : List Beat) : (s.takeFrame r).bsRsp = s.bsRsp := rfl
@[simp] theorem State.takeFrame_hpReq (s : State) (r : List Beat) : (s.takeFrame r).hpReq = s.hpReq := rfl
@[simp] theorem State.takeFrame_hpRsp (s : State) (r : List Beat) : (s.takeFrame r).hpRsp = s.hpRsp := rfl
@[simp] theorem State.takeFrame_epoch (s : State) (r : List Beat) : (s.takeFrame r).epoch = s.epoch := rfl

/-! ## `acceptBeats` -/

@[simp] theorem State.acceptBeats_m (s : State) : (s.acceptBeats).m = s.m := rfl
@[simp] theorem State.acceptBeats_k (s : State) : (s.acceptBeats).k = s.k := rfl
@[simp] theorem State.acceptBeats_bits (s : State) : (s.acceptBeats).bits = s.bits := rfl
@[simp] theorem State.acceptBeats_cfgd (s : State) : (s.acceptBeats).cfgd = s.cfgd := rfl
@[simp] theorem State.acceptBeats_fatal (s : State) : (s.acceptBeats).fatal = s.fatal := rfl
@[simp] theorem State.acceptBeats_lasterr (s : State) : (s.acceptBeats).lasterr = s.lasterr := rfl
@[simp] theorem State.acceptBeats_config (s : State) : (s.acceptBeats).config = s.config := rfl
@[simp] theorem State.acceptBeats_rstN (s : State) : (s.acceptBeats).rstN = s.rstN := rfl
@[simp] theorem State.acceptBeats_rspReady (s : State) : (s.acceptBeats).rspReady = s.rspReady := rfl
@[simp] theorem State.acceptBeats_cmd (s : State) : (s.acceptBeats).cmd = [] := rfl
@[simp] theorem State.acceptBeats_rx (s : State) : (s.acceptBeats).rx = s.rx ++ s.cmd := rfl
@[simp] theorem State.acceptBeats_rsp (s : State) : (s.acceptBeats).rsp = s.rsp := rfl
@[simp] theorem State.acceptBeats_sent (s : State) : (s.acceptBeats).sent = s.sent := rfl
@[simp] theorem State.acceptBeats_bsReq (s : State) : (s.acceptBeats).bsReq = s.bsReq := rfl
@[simp] theorem State.acceptBeats_bsRsp (s : State) : (s.acceptBeats).bsRsp = s.bsRsp := rfl
@[simp] theorem State.acceptBeats_hpReq (s : State) : (s.acceptBeats).hpReq = s.hpReq := rfl
@[simp] theorem State.acceptBeats_hpRsp (s : State) : (s.acceptBeats).hpRsp = s.hpRsp := rfl
@[simp] theorem State.acceptBeats_epoch (s : State) : (s.acceptBeats).epoch = s.epoch := rfl

/-! ## `applyReset` -/

@[simp] theorem State.applyReset_m (s : State) : (s.applyReset).m = 0 := rfl
@[simp] theorem State.applyReset_k (s : State) : (s.applyReset).k = 0 := rfl
@[simp] theorem State.applyReset_bits (s : State) : (s.applyReset).bits = [] := rfl
@[simp] theorem State.applyReset_cfgd (s : State) : (s.applyReset).cfgd = false := rfl
@[simp] theorem State.applyReset_fatal (s : State) : (s.applyReset).fatal = false := rfl
@[simp] theorem State.applyReset_lasterr (s : State) : (s.applyReset).lasterr = 0 := rfl
@[simp] theorem State.applyReset_config (s : State) : (s.applyReset).config = s.config := rfl
@[simp] theorem State.applyReset_rstN (s : State) : (s.applyReset).rstN = s.rstN := rfl
@[simp] theorem State.applyReset_rspReady (s : State) : (s.applyReset).rspReady = s.rspReady := rfl
@[simp] theorem State.applyReset_cmd (s : State) : (s.applyReset).cmd = s.cmd := rfl
@[simp] theorem State.applyReset_rx (s : State) : (s.applyReset).rx = [] := rfl
@[simp] theorem State.applyReset_rsp (s : State) : (s.applyReset).rsp = [] := rfl
@[simp] theorem State.applyReset_sent (s : State) : (s.applyReset).sent = s.sent := rfl
@[simp] theorem State.applyReset_bsReq (s : State) : (s.applyReset).bsReq = none := rfl
@[simp] theorem State.applyReset_bsRsp (s : State) : (s.applyReset).bsRsp = none := rfl
@[simp] theorem State.applyReset_hpReq (s : State) : (s.applyReset).hpReq = none := rfl
@[simp] theorem State.applyReset_hpRsp (s : State) : (s.applyReset).hpRsp = none := rfl
@[simp] theorem State.applyReset_epoch (s : State) : (s.applyReset).epoch = s.epoch + 1 := rfl

/-! ## `transferBeat` -/

@[simp] theorem State.transferBeat_m (s : State) : s.transferBeat.m = s.m := by unfold State.transferBeat; split <;> rfl
@[simp] theorem State.transferBeat_k (s : State) : s.transferBeat.k = s.k := by unfold State.transferBeat; split <;> rfl
@[simp] theorem State.transferBeat_bits (s : State) : s.transferBeat.bits = s.bits := by unfold State.transferBeat; split <;> rfl
@[simp] theorem State.transferBeat_cfgd (s : State) : s.transferBeat.cfgd = s.cfgd := by unfold State.transferBeat; split <;> rfl
@[simp] theorem State.transferBeat_fatal (s : State) : s.transferBeat.fatal = s.fatal := by unfold State.transferBeat; split <;> rfl
@[simp] theorem State.transferBeat_lasterr (s : State) : s.transferBeat.lasterr = s.lasterr := by unfold State.transferBeat; split <;> rfl
@[simp] theorem State.transferBeat_config (s : State) : s.transferBeat.config = s.config := by unfold State.transferBeat; split <;> rfl
@[simp] theorem State.transferBeat_rstN (s : State) : s.transferBeat.rstN = s.rstN := by unfold State.transferBeat; split <;> rfl
@[simp] theorem State.transferBeat_rspReady (s : State) : s.transferBeat.rspReady = s.rspReady := by unfold State.transferBeat; split <;> rfl
@[simp] theorem State.transferBeat_cmd (s : State) : s.transferBeat.cmd = s.cmd := by unfold State.transferBeat; split <;> rfl
@[simp] theorem State.transferBeat_rx (s : State) : s.transferBeat.rx = s.rx := by unfold State.transferBeat; split <;> rfl
@[simp] theorem State.transferBeat_bsReq (s : State) : s.transferBeat.bsReq = s.bsReq := by unfold State.transferBeat; split <;> rfl
@[simp] theorem State.transferBeat_bsRsp (s : State) : s.transferBeat.bsRsp = s.bsRsp := by unfold State.transferBeat; split <;> rfl
@[simp] theorem State.transferBeat_hpReq (s : State) : s.transferBeat.hpReq = s.hpReq := by unfold State.transferBeat; split <;> rfl
@[simp] theorem State.transferBeat_hpRsp (s : State) : s.transferBeat.hpRsp = s.hpRsp := by unfold State.transferBeat; split <;> rfl
@[simp] theorem State.transferBeat_epoch (s : State) : s.transferBeat.epoch = s.epoch := by unfold State.transferBeat; split <;> rfl

/-! ## Reads over memory -/

@[simp] theorem State.setGeometry_memRead (s : State) (m : BitVec 64) (k : BitVec 32) (w : Nat) : (s.setGeometry m k).memRead w = s.memRead w := rfl
@[simp] theorem State.setGeometry_bitAt (s : State) (m : BitVec 64) (k : BitVec 32) (p : Nat) : (s.setGeometry m k).bitAt p = s.bitAt p := rfl
@[simp] theorem State.setCfgd_memRead (s : State) (w : Nat) : (s.setCfgd).memRead w = s.memRead w := rfl
@[simp] theorem State.setCfgd_bitAt (s : State) (p : Nat) : (s.setCfgd).bitAt p = s.bitAt p := rfl
@[simp] theorem State.respond_memRead (s : State) (o : BitVec 8) (c : Code) (v : Word) (w : Nat) : (s.respond o c v).memRead w = s.memRead w := rfl
@[simp] theorem State.respond_bitAt (s : State) (o : BitVec 8) (c : Code) (v : Word) (p : Nat) : (s.respond o c v).bitAt p = s.bitAt p := rfl
@[simp] theorem State.raiseFatal_memRead (s : State) (w : Nat) : (s.raiseFatal).memRead w = s.memRead w := rfl
@[simp] theorem State.raiseFatal_bitAt (s : State) (p : Nat) : (s.raiseFatal).bitAt p = s.bitAt p := rfl
@[simp] theorem State.setBsRsp_memRead (s : State) (r : BsRsp) (w : Nat) : (s.setBsRsp r).memRead w = s.memRead w := rfl
@[simp] theorem State.setBsRsp_bitAt (s : State) (r : BsRsp) (p : Nat) : (s.setBsRsp r).bitAt p = s.bitAt p := rfl
@[simp] theorem State.setHpRsp_memRead (s : State) (v : Word) (w : Nat) : (s.setHpRsp v).memRead w = s.memRead w := rfl
@[simp] theorem State.setHpRsp_bitAt (s : State) (v : Word) (p : Nat) : (s.setHpRsp v).bitAt p = s.bitAt p := rfl
@[simp] theorem State.takeBsReq_memRead (s : State) (w : Nat) : (s.takeBsReq).memRead w = s.memRead w := rfl
@[simp] theorem State.takeBsReq_bitAt (s : State) (p : Nat) : (s.takeBsReq).bitAt p = s.bitAt p := rfl
@[simp] theorem State.takeHpReq_memRead (s : State) (w : Nat) : (s.takeHpReq).memRead w = s.memRead w := rfl
@[simp] theorem State.takeHpReq_bitAt (s : State) (p : Nat) : (s.takeHpReq).bitAt p = s.bitAt p := rfl
@[simp] theorem State.takeFrame_memRead (s : State) (r : List Beat) (w : Nat) : (s.takeFrame r).memRead w = s.memRead w := rfl
@[simp] theorem State.takeFrame_bitAt (s : State) (r : List Beat) (p : Nat) : (s.takeFrame r).bitAt p = s.bitAt p := rfl
@[simp] theorem State.acceptBeats_memRead (s : State) (w : Nat) : (s.acceptBeats).memRead w = s.memRead w := rfl
@[simp] theorem State.acceptBeats_bitAt (s : State) (p : Nat) : (s.acceptBeats).bitAt p = s.bitAt p := rfl
@[simp] theorem State.transferBeat_memRead (s : State) (w : Nat) : s.transferBeat.memRead w = s.memRead w := by
  unfold State.transferBeat; split <;> rfl
@[simp] theorem State.transferBeat_bitAt (s : State) (p : Nat) : s.transferBeat.bitAt p = s.bitAt p := by
  unfold State.transferBeat; split <;> rfl

/-! ## Taking an error is a response (R128) -/

theorem State.error_eq (s : State) (o : BitVec 8) (c : Code) : s.error o c = s.respond o c 0 := rfl

theorem State.execUnassigned_eq (s : State) (o : BitVec 8) : s.execUnassigned o = s.respond o .illegal 0 := rfl

@[simp] theorem lasterrAfter_ok (b : BitVec 8) : lasterrAfter .ok b = b := rfl

theorem lasterrAfter_error {c : Code} (h : c ≠ .ok) (b : BitVec 8) : lasterrAfter c b = codeByte c := by
  simp [lasterrAfter, h]

theorem lasterrAfter_le {c : Code} {b : BitVec 8} (h : b.toNat ≤ 5) : (lasterrAfter c b).toNat ≤ 5 := by
  cases c <;> first | exact h | simp [lasterrAfter, codeByte]

end Sys2Proof.Machine
end

