-- ==== Sys2Proof/Laws/Memory.lean ====
section
/-! SUPPORT. The bit store's words: a read after a write, what a write and a clear leave alone, and the canonical form. -/

namespace Sys2Proof.Machine

/-! ## Lookup over write and clear -/

theorem Memory.lookup_write (mem : Memory) (w : Nat) (v : Word) (w' : Nat) :
    Memory.lookup (Memory.write mem w v) w' = if w = w' then some v else Memory.lookup mem w' := by
  induction mem with
  | nil => simp [Memory.write, Memory.lookup]
  | cons e rest ih =>
    obtain ⟨a, x⟩ := e
    by_cases h1 : w < a
    · simp [Memory.write, Memory.lookup, h1]
    · by_cases h2 : w = a
      · subst h2
        by_cases h3 : w = w' <;> simp [Memory.write, Memory.lookup, h3]
      · by_cases h3 : a = w'
        · subst h3; simp [Memory.write, Memory.lookup, h1, h2]
        · simp [Memory.write, Memory.lookup, h1, h2, h3, ih]

theorem Memory.lookup_clear (mem : Memory) (n w : Nat) :
    Memory.lookup (Memory.clear mem n) w = if w < n then some 0 else Memory.lookup mem w := by
  induction n with
  | zero => simp [Memory.clear]
  | succ n ih =>
    rw [Memory.clear, Memory.lookup_write, ih]
    by_cases h1 : n = w <;> by_cases h2 : w < n <;> by_cases h3 : w < n + 1 <;> simp [h1, h2, h3] <;> omega

/-! ## The canonical form -/

theorem Memory.mem_write {mem : Memory} {w : Nat} {v : Word} {e : Nat × Word} (h : e ∈ Memory.write mem w v) :
    e = (w, v) ∨ e ∈ mem := by
  induction mem with
  | nil => simpa [Memory.write] using h
  | cons c rest ih =>
    obtain ⟨a, x⟩ := c
    unfold Memory.write at h
    split at h
    · simpa using h
    · split at h
      · rcases List.mem_cons.1 h with h | h
        · exact .inl h
        · exact .inr (List.mem_cons_of_mem _ h)
      · rcases List.mem_cons.1 h with h | h
        · exact .inr (h ▸ List.mem_cons_self)
        · exact (ih h).imp_right (List.mem_cons_of_mem _)

theorem Memory.wf_write {mem : Memory} (h : Memory.wf mem) (w : Nat) (v : Word) : Memory.wf (Memory.write mem w v) := by
  induction mem with
  | nil => simp [Memory.write, Memory.wf]
  | cons c rest ih =>
    obtain ⟨a, x⟩ := c
    obtain ⟨hlt, hrest⟩ := List.pairwise_cons.1 h
    unfold Memory.write
    split
    · rename_i hw
      refine List.pairwise_cons.2 ⟨fun e he => ?_, h⟩
      rcases List.mem_cons.1 he with rfl | he
      · exact hw
      · exact Nat.lt_trans hw (hlt e he)
    · split
      · rename_i hw
        subst hw
        exact List.pairwise_cons.2 ⟨hlt, hrest⟩
      · refine List.pairwise_cons.2 ⟨fun e he => ?_, ih hrest⟩
        rcases Memory.mem_write he with rfl | he
        · show a < w; omega
        · exact hlt e he

theorem Memory.wf_clear {mem : Memory} (h : Memory.wf mem) (n : Nat) : Memory.wf (Memory.clear mem n) := by
  induction n with
  | zero => exact h
  | succ n ih => exact Memory.wf_write ih n 0

/-! ## Reads of the state -/

theorem State.memRead_memWrite (s : State) (w : Nat) (v : Word) (w' : Nat) :
    (s.memWrite w v).memRead w' = if w = w' then v else s.memRead w' := by
  unfold State.memRead
  rw [State.memWrite_bits, Memory.lookup_write]
  split <;> rfl

theorem State.memRead_memClear (s : State) (n w : Nat) :
    (s.memClear n).memRead w = if w < n then 0 else s.memRead w := by
  unfold State.memRead
  rw [State.memClear_bits, Memory.lookup_clear]
  split <;> rfl

/-! ## Single bits -/

theorem wordIndex_bitOffset (p : Nat) : 64 * wordIndex p + bitOffset p = p := by
  unfold wordIndex bitOffset; omega

theorem bitOffset_lt (p : Nat) : bitOffset p < 64 := Nat.mod_lt _ (by decide)

theorem bitMask_getLsbD (p i : Nat) (hi : i < 64) : (bitMask p).getLsbD i = decide (i = bitOffset p) := by
  have h := bitOffset_lt p
  unfold bitMask
  rw [BitVec.getLsbD_shiftLeft]
  by_cases h1 : i < bitOffset p
  · simp [hi, h1, Nat.ne_of_lt h1]
  · have : ((1 : Word).getLsbD (i - bitOffset p)) = decide (i - bitOffset p = 0) := by
      rw [show (1 : Word) = 1#64 from rfl, BitVec.getLsbD_one]; simp
    rw [this]
    simp only [hi, h1, decide_true, decide_false, Bool.not_false, Bool.true_and]
    congr 1
    apply propext
    omega

theorem State.bitAt_memClear (s : State) (n p : Nat) :
    (s.memClear n).bitAt p = if p < 64 * n then false else s.bitAt p := by
  unfold State.bitAt
  rw [State.memRead_memClear]
  have : wordIndex p < n ↔ p < 64 * n := by unfold wordIndex; omega
  by_cases h : p < 64 * n <;> simp [this, h]

/-- The read-modify-write of `BS_SET` sets its own bit and no other (R82). -/
theorem State.bitAt_setBit (s : State) (p q : Nat) :
    (s.memWrite (wordIndex p) (s.memRead (wordIndex p) ||| bitMask p)).bitAt q = (s.bitAt q || decide (q = p)) := by
  unfold State.bitAt
  rw [State.memRead_memWrite]
  by_cases h : wordIndex p = wordIndex q
  · rw [if_pos h, BitVec.getLsbD_or, bitMask_getLsbD _ _ (bitOffset_lt q), h]
    congr 2
    apply propext
    have := wordIndex_bitOffset p
    have := wordIndex_bitOffset q
    omega
  · rw [if_neg h]
    have : q ≠ p := fun e => h (by rw [e])
    simp [this]

end Sys2Proof.Machine
end

