-- ==== Sys2Proof/Laws/Filter.lean ====
section
/-! SUPPORT. What each shared operation of the bit store, the hash engine and the filter can do, said once. -/

namespace Sys2Proof.Machine

/-! ## Micro-operations -/

theorem State.posInRange_iff (s : State) (p : Word) :
    s.posInRange p = true ↔ s.cfgd = true ∧ p.toNat < s.m.toNat := by simp [State.posInRange]

theorem State.idxInRange_iff (s : State) (i : Word) :
    s.idxInRange i = true ↔ s.cfgd = true ∧ i.toNat < s.nwords := by simp [State.idxInRange]

/-- `BS_SET` in range answers the state with the one word rewritten (R82). -/
theorem bsSet_of_inRange {p : Word} {s : State} (h : s.posInRange p = true) :
    bsSet p s = some (s.memWrite (wordIndex p.toNat) (s.memRead (wordIndex p.toNat) ||| bitMask p.toNat)) := by
  simp [bsSet, h]

/-- `BS_SET` answers a state only in range, and then this one (R82, R85). -/
theorem bsSet_eq_some {p : Word} {s t : State} (h : bsSet p s = some t) :
    s.posInRange p = true ∧
      t = s.memWrite (wordIndex p.toNat) (s.memRead (wordIndex p.toNat) ||| bitMask p.toNat) := by
  unfold bsSet at h
  split at h
  · exact ⟨‹_›, (Option.some.inj h).symm⟩
  · cases h

theorem bsSet_eq_none {p : Word} {s : State} : bsSet p s = none ↔ s.posInRange p = false := by
  unfold bsSet; split <;> simp_all

theorem getBit_eq (v : Word) (i : Nat) : decide ((v >>> i) &&& 1 = 1) = v.getLsbD i := by
  have h : ((v >>> i) &&& 1 = 1) ↔ (v.getLsbD i = true) := by
    constructor
    · intro h
      have := congrArg (fun x => x.getLsbD 0) h
      simpa using this
    · intro h
      apply BitVec.eq_of_getLsbD_eq
      intro j hj
      rw [BitVec.getLsbD_and, BitVec.getLsbD_ushiftRight, show (1 : Word) = 1#64 from rfl, BitVec.getLsbD_one]
      by_cases hj0 : j = 0
      · subst hj0; simpa using h
      · simp [hj0]
  rw [Bool.eq_iff_iff]; simpa using h

/-- `BS_GET` in range answers the bit (R83). -/
theorem bsGet_of_inRange {p : Word} {s : State} (h : s.posInRange p = true) : bsGet p s = some (s.bitAt p.toNat) := by
  rw [bsGet, if_pos h, getBit_eq]; rfl

theorem bsGet_eq_none {p : Word} {s : State} : bsGet p s = none ↔ s.posInRange p = false := by
  unfold bsGet; split <;> simp_all

theorem bsRdw_of_inRange {i : Word} {s : State} (h : s.idxInRange i = true) : bsRdw i s = some (s.memRead i.toNat) := by
  simp [bsRdw, h]

theorem bsRdw_eq_none {i : Word} {s : State} : bsRdw i s = none ↔ s.idxInRange i = false := by
  unfold bsRdw; split <;> simp_all

/-! ## The probe bound (R97, R105) -/

theorem reduceMod_lt (h : Word) {m : Word} (hm : m ≠ 0) : (reduceMod h m).toNat < m.toNat := by
  rw [reduceMod, if_neg hm, BitVec.toNat_umod]
  exact Nat.mod_lt _ (by have := BitVec.toNat_ne.1 hm; simpa [Nat.pos_iff_ne_zero] using this)

theorem hpProbe_lt (key : List Byte) (i : Word) {m : Word} (hm : m ≠ 0) : (hpProbe key i m).toNat < m.toNat :=
  reduceMod_lt _ hm

theorem probes_lt {key : List Byte} {m : BitVec 64} {k : BitVec 32} (hm : m ≠ 0) {p : Word}
    (hp : p ∈ probes key m k) : p.toNat < m.toNat := by
  obtain ⟨i, -, rfl⟩ := List.mem_map.1 hp
  exact hpProbe_lt key _ hm

theorem ne_zero_of_one_le {w : Nat} {x : BitVec w} (h : 1 ≤ x.toNat) : x ≠ 0 := by
  rintro rfl; simp at h

/-! ## The probe loops (R102, R103) -/

/-- What `setAll` leaves, whichever way it ends: nothing changes but `BITS`, and there every bit of the positions served
is added. -/
theorem setAll_done {ps : List Word} {s t : State} (h : setAll ps s = .done t) :
    ∃ bits, t = { s with bits := bits } ∧ (Memory.wf s.bits → Memory.wf bits) ∧
      (∀ q, t.bitAt q = true ↔ s.bitAt q = true ∨ ∃ p ∈ ps, p.toNat = q) ∧
      (∀ w, (Memory.lookup bits w).isSome = true → (Memory.lookup s.bits w).isSome = true ∨ w < wordCount s.m) ∧
      (∀ w, (Memory.lookup s.bits w).isSome = true → (Memory.lookup bits w).isSome = true) := by
  induction ps generalizing s with
  | nil =>
    obtain rfl : s = t := by injection h
    exact ⟨s.bits, rfl, id, by simp, fun _ h => .inl h, fun _ h => h⟩
  | cons p ps ih =>
    unfold setAll at h
    split at h
    · rename_i u hu
      obtain ⟨hr, rfl⟩ := bsSet_eq_some hu
      obtain ⟨bits, rfl, hwf, hbit, hnew, hold⟩ := ih h
      refine ⟨bits, rfl, fun hw => hwf (Memory.wf_write hw _ _), fun q => ?_, fun w hw => ?_, fun w hw => hold w ?_⟩
      · rw [hbit, State.bitAt_setBit, Bool.or_eq_true, decide_eq_true_eq, or_assoc]
        simp only [List.mem_cons, exists_eq_or_imp]
        exact or_congr Iff.rfl (or_congr eq_comm Iff.rfl)
      · have hlt := ((State.posInRange_iff s p).1 hr).2
        rcases hnew w hw with h | h
        · rw [State.memWrite_bits, Memory.lookup_write] at h
          split at h
          · rename_i e
            right; subst e
            unfold wordIndex wordCount ceilDiv; omega
          · exact .inl h
        · exact .inr h
      · rw [State.memWrite_bits, Memory.lookup_write]
        split <;> simp_all
    · cases h

/-- With a filter and every position below `M`, `setAll` ends normally (R105). -/
theorem setAll_completes {ps : List Word} {s : State} (hc : s.cfgd = true) (hp : ∀ p ∈ ps, p.toNat < s.m.toNat) :
    ∃ t, setAll ps s = .done t := by
  induction ps generalizing s with
  | nil => exact ⟨s, rfl⟩
  | cons p ps ih =>
    have hr := (State.posInRange_iff s p).2 ⟨hc, hp p List.mem_cons_self⟩
    rw [setAll, bsSet_of_inRange hr]
    exact ih hc fun q hq => hp q (List.mem_cons_of_mem _ hq)

/-- With a filter and every position below `M`, `getAll` says whether all of them are set (R103, R105). -/
theorem getAll_eq {ps : List Word} {s : State} (hc : s.cfgd = true) (hp : ∀ p ∈ ps, p.toNat < s.m.toNat) :
    getAll ps s = some (ps.all fun p => s.bitAt p.toNat) := by
  induction ps with
  | nil => rfl
  | cons p ps ih =>
    have hr := (State.posInRange_iff s p).2 ⟨hc, hp p List.mem_cons_self⟩
    have ih := ih fun q hq => hp q (List.mem_cons_of_mem _ hq)
    rw [getAll, bsGet_of_inRange hr]
    cases hb : s.bitAt p.toNat <;> simp [hb, ih]

end Sys2Proof.Machine
end

