-- ==== Sys2Proof/Laws/Exec.lean ====
section
/-! SUPPORT. What each meaning answers, one lemma per outcome, in the order of its checks (`60_exceptions.md` R127), so that
no proof unfolds a meaning. -/

namespace Sys2Proof.Machine

variable {rsv : BitVec 24} {arg : BitVec 32} {s : State}

/-! ## `NOP` and `STAT` -/

theorem execNop_ok (h : rsv = 0) (h' : arg = 0) : execNop rsv arg s = .next (s.respond 0x00 .ok 0) :=
  if_neg (by simp [h, h'])

theorem execNop_illegal (h : rsv ≠ 0 ∨ arg ≠ 0) : execNop rsv arg s = .next (s.error 0x00 .illegal) := if_pos h

theorem statRead_eq_none {sel : BitVec 32} : statRead sel s = none ↔ 7 < sel.toNat := by
  unfold statRead
  constructor
  · intro h
    by_contra hc
    have : sel = 0 ∨ sel = 1 ∨ sel = 2 ∨ sel = 3 ∨ sel = 4 ∨ sel = 5 ∨ sel = 6 ∨ sel = 7 := by
      simp only [← BitVec.toNat_inj]; simp; omega
    rcases this with rfl | rfl | rfl | rfl | rfl | rfl | rfl | rfl <;> simp at h
  · intro h
    have : ∀ n : BitVec 32, n.toNat ≤ 7 → sel ≠ n := by rintro n hn rfl; omega
    simp [this]

theorem execStat_rsv {sel : BitVec 32} (h : rsv ≠ 0) : execStat rsv sel s = .next (s.error 0x07 .illegal) := if_pos h

theorem execStat_sel {sel : BitVec 32} (h : rsv = 0) (h' : 7 < sel.toNat) :
    execStat rsv sel s = .next (s.error 0x07 .illegal) := by
  rw [execStat, if_neg (by simp [h]), statRead_eq_none.2 h']; rfl

theorem execStat_ok {sel : BitVec 32} {v : Word} (h : rsv = 0) (h' : statRead sel s = some v) :
    execStat rsv sel s = .next (s.respond 0x07 .ok v) := by
  rw [execStat, if_neg (by simp [h]), h']; rfl

/-! ## `HASH` -/

theorem execHash_rsv {seed : BitVec 64} {key : List Byte} (h : rsv ≠ 0) :
    execHash rsv seed key s = .next (s.error 0x04 .illegal) := if_pos h

theorem execHash_cap {seed : BitVec 64} {key : List Byte} (h : rsv = 0) (h' : s.config.keyMax.toNat < key.length) :
    execHash rsv seed key s = .next (s.error 0x04 .cap) := by
  rw [execHash, if_neg (by simp [h]), if_pos h']; rfl

theorem execHash_ok {seed : BitVec 64} {key : List Byte} (h : rsv = 0) (h' : key.length ≤ s.config.keyMax.toNat) :
    execHash rsv seed key s = .next (s.respond 0x04 .ok (hpHash key seed)) := by
  rw [execHash, if_neg (by simp [h]), if_neg (by omega)]; rfl

/-! ## `BGET` and `RDW` -/

theorem execBget_illegal {pos : BitVec 64} (h : rsv ≠ 0 ∨ arg ≠ 0) :
    execBget rsv arg pos s = .next (s.error 0x05 .illegal) := if_pos h

theorem execBget_nocfg {pos : BitVec 64} (h : rsv = 0) (h' : arg = 0) (hc : s.cfgd = false) :
    execBget rsv arg pos s = .next (s.error 0x05 .nocfg) := by
  rw [execBget, if_neg (by simp [h, h']), if_pos hc]; rfl

theorem execBget_range {pos : BitVec 64} (h : rsv = 0) (h' : arg = 0) (hc : s.cfgd = true)
    (hp : s.m.toNat ≤ pos.toNat) : execBget rsv arg pos s = .next (s.error 0x05 .range) := by
  rw [execBget, if_neg (by simp [h, h']), if_neg (by simp [hc]), if_pos (BitVec.le_def.2 hp)]; rfl

theorem execBget_ok {pos : BitVec 64} (h : rsv = 0) (h' : arg = 0) (hc : s.cfgd = true)
    (hp : pos.toNat < s.m.toNat) :
    execBget rsv arg pos s = .next (s.respond 0x05 .ok (boolWord (s.bitAt pos.toNat))) := by
  rw [execBget, if_neg (by simp [h, h']), if_neg (by simp [hc]), if_neg (by rw [BitVec.le_def]; omega),
    bsGet_of_inRange ((s.posInRange_iff pos).2 ⟨hc, hp⟩)]
  rfl

theorem execRdw_illegal {idx : BitVec 64} (h : rsv ≠ 0 ∨ arg ≠ 0) :
    execRdw rsv arg idx s = .next (s.error 0x06 .illegal) := if_pos h

theorem execRdw_nocfg {idx : BitVec 64} (h : rsv = 0) (h' : arg = 0) (hc : s.cfgd = false) :
    execRdw rsv arg idx s = .next (s.error 0x06 .nocfg) := by
  rw [execRdw, if_neg (by simp [h, h']), if_pos hc]; rfl

theorem execRdw_range {idx : BitVec 64} (h : rsv = 0) (h' : arg = 0) (hc : s.cfgd = true)
    (hp : s.nwords ≤ idx.toNat) : execRdw rsv arg idx s = .next (s.error 0x06 .range) := by
  rw [execRdw, if_neg (by simp [h, h']), if_neg (by simp [hc]), if_pos hp]; rfl

theorem execRdw_ok {idx : BitVec 64} (h : rsv = 0) (h' : arg = 0) (hc : s.cfgd = true)
    (hp : idx.toNat < s.nwords) : execRdw rsv arg idx s = .next (s.respond 0x06 .ok (s.memRead idx.toNat)) := by
  rw [execRdw, if_neg (by simp [h, h']), if_neg (by simp [hc]), if_neg (by omega),
    bsRdw_of_inRange ((s.idxInRange_iff idx).2 ⟨hc, hp⟩)]
  rfl

/-! ## `CFG` -/

theorem execCfg_rsv {m : BitVec 64} {k : BitVec 32} (h : rsv ≠ 0) :
    execCfg rsv m k s = .next (s.error 0x01 .illegal) := if_pos h

theorem execCfg_zero {m : BitVec 64} {k : BitVec 32} (h : rsv = 0) (h' : m = 0 ∨ k = 0) :
    execCfg rsv m k s = .next (s.error 0x01 .cfg) := by
  rw [execCfg, if_neg (by simp [h]), if_pos h']; rfl

theorem execCfg_cap {m : BitVec 64} {k : BitVec 32} (h : rsv = 0) (hm : m ≠ 0) (hk : k ≠ 0)
    (h' : s.config.mMax.toNat < m.toNat ∨ s.config.kMax.toNat < k.toNat) :
    execCfg rsv m k s = .next (s.error 0x01 .cap) := by
  rw [execCfg, if_neg (by simp [h]), if_neg (not_or.2 ⟨hm, hk⟩), if_pos (by simpa [BitVec.lt_def] using h')]; rfl

/-- The state a legal `CFG` leaves, before its response. -/
def configured (m : BitVec 64) (k : BitVec 32) (s : State) : State :=
  ((s.setGeometry m k).memClear (wordCount m)).setCfgd

theorem execCfg_ok {m : BitVec 64} {k : BitVec 32} (h : rsv = 0) (hm : m ≠ 0) (hk : k ≠ 0)
    (hM : m.toNat ≤ s.config.mMax.toNat) (hK : k.toNat ≤ s.config.kMax.toNat) :
    execCfg rsv m k s = .next ((configured m k s).respond 0x01 .ok 0) := by
  rw [execCfg, if_neg (by simp [h]), if_neg (not_or.2 ⟨hm, hk⟩),
    if_neg (by rw [BitVec.lt_def, BitVec.lt_def]; omega)]
  rfl

/-! ## `ADD` and `QRY` -/

theorem execAdd_rsv {key : List Byte} (h : rsv ≠ 0) : execAdd rsv key s = .next (s.error 0x02 .illegal) := if_pos h

theorem execAdd_nocfg {key : List Byte} (h : rsv = 0) (hc : s.cfgd = false) :
    execAdd rsv key s = .next (s.error 0x02 .nocfg) := by
  rw [execAdd, if_neg (by simp [h]), if_pos hc]; rfl

theorem execAdd_cap {key : List Byte} (h : rsv = 0) (hc : s.cfgd = true) (hk : s.config.keyMax.toNat < key.length) :
    execAdd rsv key s = .next (s.error 0x02 .cap) := by
  rw [execAdd, if_neg (by simp [h]), if_neg (by simp [hc]), if_pos hk]; rfl

theorem execAdd_ok {key : List Byte} {t : State} (h : rsv = 0) (hc : s.cfgd = true)
    (hk : key.length ≤ s.config.keyMax.toNat) (ht : setAll (probes key s.m s.k) s = .done t) :
    execAdd rsv key s = .next (t.respond 0x02 .ok 0) := by
  rw [execAdd, if_neg (by simp [h]), if_neg (by simp [hc]), if_neg (by omega), ht]; rfl

theorem execQry_rsv {key : List Byte} (h : rsv ≠ 0) : execQry rsv key s = .next (s.error 0x03 .illegal) := if_pos h

theorem execQry_nocfg {key : List Byte} (h : rsv = 0) (hc : s.cfgd = false) :
    execQry rsv key s = .next (s.error 0x03 .nocfg) := by
  rw [execQry, if_neg (by simp [h]), if_pos hc]; rfl

theorem execQry_cap {key : List Byte} (h : rsv = 0) (hc : s.cfgd = true) (hk : s.config.keyMax.toNat < key.length) :
    execQry rsv key s = .next (s.error 0x03 .cap) := by
  rw [execQry, if_neg (by simp [h]), if_neg (by simp [hc]), if_pos hk]; rfl

theorem execQry_ok {key : List Byte} (h : rsv = 0) (hc : s.cfgd = true) (hm : s.m ≠ 0)
    (hk : key.length ≤ s.config.keyMax.toNat) :
    execQry rsv key s =
      .next (s.respond 0x03 .ok (boolWord ((probes key s.m s.k).all fun p => s.bitAt p.toNat))) := by
  rw [execQry, if_neg (by simp [h]), if_neg (by simp [hc]), if_neg (by omega),
    getAll_eq hc fun p hp => probes_lt hm hp]
  rfl

/-! ## The micro-operations on their own ports -/

theorem execBsGet_ok {pos : BitVec 64} (h : s.posInRange pos = true) :
    execBsGet pos s = .next (s.setBsRsp (.data (boolWord (s.bitAt pos.toNat)))) := by
  rw [execBsGet, bsGet_of_inRange h]

theorem execBsGet_fatal {pos : BitVec 64} (h : s.posInRange pos = false) :
    execBsGet pos s = .next s.bitRangeFault := by rw [execBsGet, bsGet_eq_none.2 h]

theorem execBsSet_ok {pos : BitVec 64} (h : s.posInRange pos = true) :
    execBsSet pos s = .next ((s.memWrite (wordIndex pos.toNat)
      (s.memRead (wordIndex pos.toNat) ||| bitMask pos.toNat)).setBsRsp (.data 0)) := by
  rw [execBsSet, bsSet_of_inRange h]

theorem execBsSet_fatal {pos : BitVec 64} (h : s.posInRange pos = false) :
    execBsSet pos s = .next s.bitRangeFault := by rw [execBsSet, bsSet_eq_none.2 h]

theorem execBsRdw_ok {idx : BitVec 64} (h : s.idxInRange idx = true) :
    execBsRdw idx s = .next (s.setBsRsp (.data (s.memRead idx.toNat))) := by
  rw [execBsRdw, bsRdw_of_inRange h]

theorem execBsRdw_fatal {idx : BitVec 64} (h : s.idxInRange idx = false) :
    execBsRdw idx s = .next s.bitRangeFault := by rw [execBsRdw, bsRdw_eq_none.2 h]

theorem execBsClear_ok {n : BitVec 64} (h : n.toNat ≤ s.config.nwMax) :
    execBsClear n s = .next ((s.memClear n.toNat).setBsRsp (.data 0)) := if_pos h

theorem execBsClear_fault {n : BitVec 64} (h : s.config.nwMax < n.toNat) :
    execBsClear n s = .fault .clearBeyondStore := if_neg (by omega)

end Sys2Proof.Machine
end

