-- ==== Sys2Proof/Laws/Cases.lean ====
section
/-! SUPPORT. What an instruction and a step can do, said once: one inversion lemma for `exec`, one for `step`. Invariants and
frames follow from these. -/

namespace Sys2Proof.Machine

/-- Where the loop of `ADD` stops on a failed precondition, nothing but `BITS` has changed, and no bit is lost. -/
theorem setAll_fatal {ps : List Word} {s t : State} (h : setAll ps s = .fatal t) :
    ∃ bits, t = { s with bits := bits } ∧ s.bitsGrow t := by
  induction ps generalizing s with
  | nil => cases h
  | cons p ps ih =>
    unfold setAll at h
    split at h
    · rename_i u hu
      obtain ⟨-, rfl⟩ := bsSet_eq_some hu
      obtain ⟨bits, rfl, hg⟩ := ih h
      exact ⟨bits, rfl, fun q hq => hg q (by rw [State.bitAt_setBit, hq]; rfl)⟩
    · obtain rfl : s = t := by injection h
      exact ⟨s.bits, rfl, fun _ h => h⟩

/-- The state `t` is `s` answered, with nothing else done. -/
def OnlyAnswers (s t : State) : Prop := ∃ o c v, t = s.respond o c v

/-- What `exec` can answer: every command answers, with no effect but those of a legal `CFG` and an accepted `ADD`, or (in no
state of a run) raises the fatal fault; a micro-operation answers on its port, with the effect of its rule, or raises it. -/
theorem exec_cases {i : Instr} {s t : State} (h : exec i s = .next t) :
    (i.isCommand = true ∧ OnlyAnswers s t) ∨
    (∃ m k, i = .cfg 0 m k ∧ m ≠ 0 ∧ k ≠ 0 ∧ m.toNat ≤ s.config.mMax.toNat ∧ k.toNat ≤ s.config.kMax.toNat ∧
      t = (configured m k s).respond 0x01 .ok 0) ∨
    (∃ key u, i = .add 0 key ∧ s.cfgd = true ∧ key.length ≤ s.config.keyMax.toNat ∧
      setAll (probes key s.m s.k) s = .done u ∧ t = u.respond 0x02 .ok 0) ∨
    (∃ key u, i = .add 0 key ∧ s.cfgd = true ∧ setAll (probes key s.m s.k) s = .fatal u ∧ t = u.raiseFatal) ∨
    (∃ key, i = .qry 0 key ∧ s.cfgd = true ∧ getAll (probes key s.m s.k) s = none ∧ t = s.raiseFatal) ∨
    (∃ r, i.isCommand = false ∧ t = s.setBsRsp r) ∨
    (i.isCommand = false ∧ t = s.bitRangeFault) ∨
    (∃ pos, i = .bsSet pos ∧ s.posInRange pos = true ∧ t = (s.memWrite (wordIndex pos.toNat)
      (s.memRead (wordIndex pos.toNat) ||| bitMask pos.toNat)).setBsRsp (.data 0)) ∨
    (∃ n, i = .bsClear n ∧ n.toNat ≤ s.config.nwMax ∧ t = (s.memClear n.toNat).setBsRsp (.data 0)) ∨
    (∃ v, i.isCommand = false ∧ t = s.setHpRsp v) := by
  have ans : ∀ {i : Instr} {o c v}, i.isCommand = true →
      (Host.Outcome.next (s.respond o c v) : Host.Outcome State Fault Refusal) = .next t →
      i.isCommand = true ∧ OnlyAnswers s t := by
    intro i o c v hi e
    obtain rfl : s.respond o c v = t := by injection e
    exact ⟨hi, _, _, _, rfl⟩
  have ansE : ∀ {i : Instr} {o c}, i.isCommand = true →
      (Host.Outcome.next (s.error o c) : Host.Outcome State Fault Refusal) = .next t →
      i.isCommand = true ∧ OnlyAnswers s t := fun hi e => ans hi e
  cases i with
  | nop rsv arg =>
    simp only [exec, execNop] at h
    split at h
    · exact .inl (ansE rfl h)
    · exact .inl (ans rfl h)
  | cfg rsv m k =>
    simp only [exec, execCfg] at h
    split at h
    · exact .inl (ansE rfl h)
    · split at h
      · exact .inl (ansE rfl h)
      · split at h
        · exact .inl (ansE rfl h)
        · rename_i h1 h2 h3
          obtain ⟨hm, hk⟩ := not_or.1 h2
          rw [BitVec.lt_def, BitVec.lt_def] at h3
          obtain rfl : rsv = 0 := not_not.1 h1
          exact .inr (.inl ⟨m, k, rfl, hm, hk, by omega, by omega, by injection h with h; exact h.symm⟩)
  | add rsv key =>
    simp only [exec, execAdd] at h
    split at h
    · exact .inl (ansE rfl h)
    · split at h
      · exact .inl (ansE rfl h)
      · split at h
        · exact .inl (ansE rfl h)
        · rename_i h1 h2 h3
          obtain rfl : rsv = 0 := not_not.1 h1
          have hc : s.cfgd = true := by simpa using h2
          split at h
          · rename_i u hu
            exact .inr (.inr (.inl ⟨key, u, rfl, hc, by omega, hu, by injection h with h; exact h.symm⟩))
          · rename_i u hu
            exact .inr (.inr (.inr (.inl ⟨key, u, rfl, hc, hu, by injection h with h; exact h.symm⟩)))
  | qry rsv key =>
    simp only [exec, execQry] at h
    split at h
    · exact .inl (ansE rfl h)
    · split at h
      · exact .inl (ansE rfl h)
      · split at h
        · exact .inl (ansE rfl h)
        · rename_i h1 h2 h3
          obtain rfl : rsv = 0 := not_not.1 h1
          have hc : s.cfgd = true := by simpa using h2
          split at h
          · exact .inl (ans rfl h)
          · rename_i hn
            exact .inr (.inr (.inr (.inr (.inl ⟨key, rfl, hc, hn, by injection h with h; exact h.symm⟩))))
  | hash rsv seed key =>
    simp only [exec, execHash] at h
    split at h
    · exact .inl (ansE rfl h)
    · split at h
      · exact .inl (ansE rfl h)
      · exact .inl (ans rfl h)
  | bget rsv arg pos =>
    simp only [exec, execBget] at h
    split at h
    · exact .inl (ansE rfl h)
    · split at h
      · exact .inl (ansE rfl h)
      · split at h
        · exact .inl (ansE rfl h)
        · rename_i h1 h2 h3
          have hr : s.posInRange pos = true :=
            (s.posInRange_iff pos).2 ⟨by simpa using h2, by rw [BitVec.le_def] at h3; omega⟩
          rw [bsGet_of_inRange hr] at h
          exact .inl (ans rfl h)
  | rdw rsv arg idx =>
    simp only [exec, execRdw] at h
    split at h
    · exact .inl (ansE rfl h)
    · split at h
      · exact .inl (ansE rfl h)
      · split at h
        · exact .inl (ansE rfl h)
        · rename_i h1 h2 h3
          have hr : s.idxInRange idx = true := (s.idxInRange_iff idx).2 ⟨by simpa using h2, by omega⟩
          rw [bsRdw_of_inRange hr] at h
          exact .inl (ans rfl h)
  | stat rsv sel =>
    simp only [exec, execStat] at h
    split at h
    · exact .inl (ansE rfl h)
    · split at h
      · exact .inl (ans rfl h)
      · exact .inl (ansE rfl h)
  | bsGet pos =>
    simp only [exec, execBsGet] at h
    split at h
    · exact .inr (.inr (.inr (.inr (.inr (.inl ⟨_, rfl, by injection h with h; exact h.symm⟩)))))
    · exact .inr (.inr (.inr (.inr (.inr (.inr (.inl ⟨rfl, by injection h with h; exact h.symm⟩))))))
  | bsSet pos =>
    simp only [exec, execBsSet] at h
    split at h
    · rename_i u hu
      obtain ⟨hr, rfl⟩ := bsSet_eq_some hu
      exact .inr (.inr (.inr (.inr (.inr (.inr (.inr (.inl ⟨pos, rfl, hr, by injection h with h; exact h.symm⟩)))))))
    · exact .inr (.inr (.inr (.inr (.inr (.inr (.inl ⟨rfl, by injection h with h; exact h.symm⟩))))))
  | bsRdw idx =>
    simp only [exec, execBsRdw] at h
    split at h
    · exact .inr (.inr (.inr (.inr (.inr (.inl ⟨_, rfl, by injection h with h; exact h.symm⟩)))))
    · exact .inr (.inr (.inr (.inr (.inr (.inr (.inl ⟨rfl, by injection h with h; exact h.symm⟩))))))
  | bsClear n =>
    simp only [exec, execBsClear] at h
    split at h
    · rename_i hn
      exact .inr (.inr (.inr (.inr (.inr (.inr (.inr (.inr (.inl ⟨n, rfl, hn, by injection h with h; exact h.symm⟩))))))))
    · cases h
  | hpHash seed key =>
    simp only [exec, execHpHash] at h
    exact .inr (.inr (.inr (.inr (.inr (.inr (.inr (.inr (.inr ⟨_, rfl, by injection h with h; exact h.symm⟩))))))))
  | hpProbe seed m key =>
    simp only [exec, execHpProbe] at h
    exact .inr (.inr (.inr (.inr (.inr (.inr (.inr (.inr (.inr ⟨_, rfl, by injection h with h; exact h.symm⟩))))))))

/-- What the decoder reads from the command port is a command (R58). -/
theorem decodeFrame_isCommand {hdr : Beat} {body : List Beat} {i : Instr} (h : decodeFrame hdr body = some i) :
    i.isCommand = true := by
  unfold decodeFrame at h
  dsimp only at h
  split at h <;> first | (injection h with h; subst h; rfl) | cases h

theorem decodeBeats_isCommand {beats : List Beat} {i : Instr} {rest : List Beat}
    (h : decodeBeats beats = .instr i rest) : i.isCommand = true := by
  cases beats with
  | nil => cases h
  | cons hdr tail =>
    simp only [decodeBeats] at h
    split at h
    · cases h
    · split at h
      · rename_i j hj
        injection h with h1 h2
        subst h1
        exact decodeFrame_isCommand hj
      · cases h

/-- What a step can do (R3, R51, R57, R126, R140, R152, R154). -/
theorem step_cases {s t : State} (h : step s = .next t) :
    (s.rstN = false ∧ t = s.applyReset) ∨
    (s.rstN = true ∧ s.fatal = false ∧
      ((∃ r, s.bsReq = some r ∧ exec (decodeBs r) s.takeBsReq = .next t) ∨
       (s.bsReq = none ∧ ∃ r, s.hpReq = some r ∧ exec (decodeHp r) s.takeHpReq = .next t) ∨
       (s.bsReq = none ∧ s.hpReq = none ∧ s.rsp ≠ [] ∧ t = s.transferBeat) ∨
       (s.bsReq = none ∧ s.hpReq = none ∧ s.rsp = [] ∧
        ((∃ i rest, decodeBeats (s.rx ++ s.cmd) = .instr i rest ∧ exec i (s.takeFrame rest) = .next t) ∨
         (∃ opc rest, decodeBeats (s.rx ++ s.cmd) = .unassigned opc rest ∧
            t = (s.takeFrame rest).respond opc .illegal 0) ∨
         (decodeBeats (s.rx ++ s.cmd) = .incomplete ∧ t = s.acceptBeats))))) := by
  unfold step at h
  split at h
  · exact .inl ⟨‹_›, by injection h with h; exact h.symm⟩
  · split at h
    · cases h
    · rename_i h1 h2
      refine .inr ⟨by simpa using h1, by simpa using h2, ?_⟩
      split at h
      · rename_i r hr
        exact .inl ⟨r, hr, h⟩
      · rename_i hb
        split at h
        · rename_i r hr
          exact .inr (.inl ⟨hb, r, hr, h⟩)
        · rename_i hp
          split at h
          · rename_i b bs hr
            exact .inr (.inr (.inl ⟨hb, hp, by simp [hr], by injection h with h; exact h.symm⟩))
          · rename_i hr
            refine .inr (.inr (.inr ⟨hb, hp, hr, ?_⟩))
            split at h
            · rename_i i rest hd
              exact .inl ⟨i, rest, hd, h⟩
            · rename_i opc rest hd
              exact .inr (.inl ⟨opc, rest, hd, by injection h with h; exact h.symm⟩)
            · rename_i hd
              exact .inr (.inr ⟨hd, by injection h with h; exact h.symm⟩)

end Sys2Proof.Machine
end

