-- ==== Sys2Proof/Laws/Step.lean ====
section
/-! SUPPORT. What a step does in each case, one lemma a case, so that no proof unfolds `step`. -/

namespace Sys2Proof.Machine

variable {s : State}

theorem step_reset (h : s.rstN = false) : step s = .next s.applyReset := if_pos h

theorem step_fatal (h : s.rstN = true) (hf : s.fatal = true) : step s = .fault .fatalStop := by
  rw [step, if_neg (by simp [h]), if_pos hf]

theorem step_bs {r : BsReq} (h : s.rstN = true) (hf : s.fatal = false) (hb : s.bsReq = some r) :
    step s = exec (decodeBs r) s.takeBsReq := by
  rw [step, if_neg (by simp [h]), if_neg (by simp [hf]), hb]

theorem step_hp {r : HpReq} (h : s.rstN = true) (hf : s.fatal = false) (hb : s.bsReq = none) (hp : s.hpReq = some r) :
    step s = exec (decodeHp r) s.takeHpReq := by
  rw [step, if_neg (by simp [h]), if_neg (by simp [hf]), hb, hp]

theorem step_response {b : Beat} {bs : List Beat} (h : s.rstN = true) (hf : s.fatal = false) (hb : s.bsReq = none)
    (hp : s.hpReq = none) (hr : s.rsp = b :: bs) : step s = .next s.transferBeat := by
  rw [step, if_neg (by simp [h]), if_neg (by simp [hf]), hb, hp, hr]

theorem step_command {i : Instr} {rest : List Beat} (h : s.rstN = true) (hf : s.fatal = false) (hb : s.bsReq = none)
    (hp : s.hpReq = none) (hr : s.rsp = []) (hd : decodeBeats (s.rx ++ s.cmd) = .instr i rest) :
    step s = exec i (s.takeFrame rest) := by
  rw [step, if_neg (by simp [h]), if_neg (by simp [hf]), hb, hp, hr, hd]

theorem step_unassigned {opc : BitVec 8} {rest : List Beat} (h : s.rstN = true) (hf : s.fatal = false)
    (hb : s.bsReq = none) (hp : s.hpReq = none) (hr : s.rsp = [])
    (hd : decodeBeats (s.rx ++ s.cmd) = .unassigned opc rest) :
    step s = .next ((s.takeFrame rest).respond opc .illegal 0) := by
  rw [step, if_neg (by simp [h]), if_neg (by simp [hf]), hb, hp, hr, hd]; rfl

theorem step_incomplete (h : s.rstN = true) (hf : s.fatal = false) (hb : s.bsReq = none) (hp : s.hpReq = none)
    (hr : s.rsp = []) (hd : decodeBeats (s.rx ++ s.cmd) = .incomplete) : step s = .next s.acceptBeats := by
  rw [step, if_neg (by simp [h]), if_neg (by simp [hf]), hb, hp, hr, hd]

end Sys2Proof.Machine
end

