-- ==== Sys2Proof/Laws/Answers.lean ====
section
/-! SUPPORT. Responses and refusals as frames, and what an accepted `ADD` and `QRY` do, in the terms of `Safety`. -/

namespace Sys2Proof.Machine

/-! ## Frames of a response -/

theorem State.samePorts_respond (s : State) (o : BitVec 8) (c : Code) (v : Word) : s.samePorts (s.respond o c v) :=
  ⟨rfl, rfl, rfl, rfl, rfl, rfl, rfl, rfl, rfl, rfl, rfl⟩

theorem State.sameFilter_respond (s : State) (o : BitVec 8) (c : Code) (v : Word) : s.sameFilter (s.respond o c v) :=
  ⟨rfl, rfl, rfl, rfl, fun _ => rfl⟩

theorem State.answered_ok (s : State) (o : BitVec 8) (v : Word) : s.answered (s.respond o .ok v) o 0 v :=
  ⟨rfl, rfl, s.samePorts_respond ..⟩

theorem State.refusedWith_error (s : State) (o : BitVec 8) {c : Code} (hc : c ≠ .ok) :
    s.refusedWith (s.error o c) o (codeByte c) := by
  refine ⟨⟨?_, ?_, s.samePorts_respond ..⟩, s.sameFilter_respond ..⟩ <;> cases c <;>
    first | exact absurd rfl hc | rfl

/-- An answer that is an error response is a refusal (R128). -/
theorem refusedWith_of_eq {e : Host.Outcome State Fault Refusal} {s : State} {o : BitVec 8} (c : Code) (hc : c ≠ .ok)
    (he : e = .next (s.error o c)) : ∃ t, e = .next t ∧ s.refusedWith t o (codeByte c) :=
  ⟨_, he, s.refusedWith_error o hc⟩

/-! ## Reading the invariant -/

theorem State.Inv.one_le_m {s : State} (h : s.Inv) (hc : s.cfgd = true) : 1 ≤ s.m.toNat := by
  have := h.geometry
  unfold State.geometryOk at this
  rw [if_pos hc] at this
  exact this.1

theorem State.nwords_lt (s : State) : s.nwords < 2 ^ 64 := by
  have := s.m.isLt
  unfold State.nwords wordCount ceilDiv
  omega

/-- Two states agree on a word when they agree on its bits. -/
theorem memRead_eq_of_bits {s t : State} {w : Nat} (h : ∀ q, wordIndex q = w → t.bitAt q = s.bitAt q) :
    t.memRead w = s.memRead w := by
  apply BitVec.eq_of_getLsbD_eq
  intro i hi
  have := h (64 * w + i) (by unfold wordIndex; omega)
  unfold State.bitAt at this
  rwa [show wordIndex (64 * w + i) = w by unfold wordIndex; omega,
    show bitOffset (64 * w + i) = i by unfold bitOffset; omega] at this

theorem bitAt_eq_of_memRead {s t : State} (h : ∀ w, t.memRead w = s.memRead w) (q : Nat) : t.bitAt q = s.bitAt q := by
  unfold State.bitAt; rw [h]

/-! ## Probes, `ADD`, `QRY` -/

theorem hpProbe_toNat (key : List Byte) (i : Word) {m : Word} (hm : m ≠ 0) :
    (hpProbe key i m).toNat = (hpHash key i).toNat % m.toNat := by
  rw [hpProbe, reduceMod, if_neg hm, BitVec.toNat_umod]

theorem mem_probes {key : List Byte} {m : BitVec 64} {k : BitVec 32} (hm : m ≠ 0) (q : Nat) :
    (∃ p ∈ probes key m k, p.toNat = q) ↔
      ∃ i, i < k.toNat ∧ (hpHash key (BitVec.ofNat 64 i)).toNat % m.toNat = q := by
  simp [probes, hpProbe_toNat _ _ hm]

/-- An accepted `ADD` (R102): the bits of the probes are added, nothing else but the response changes. -/
theorem exec_add_ok {key : List Byte} {s : State} (hc : s.cfgd = true) (hm : 1 ≤ s.m.toNat)
    (hk : key.length ≤ s.config.keyMax.toNat) :
    ∃ bits, exec (.add 0 key) s = .next (({ s with bits := bits } : State).respond 0x02 .ok 0) ∧
      ∀ q, ({ s with bits := bits } : State).bitAt q = true ↔
        s.bitAt q = true ∨ ∃ p ∈ probes key s.m s.k, p.toNat = q := by
  obtain ⟨t, ht⟩ := setAll_completes (ps := probes key s.m s.k) hc fun p hp => probes_lt (ne_zero_of_one_le hm) hp
  obtain ⟨bits, rfl, -, hb, -, -⟩ := setAll_done ht
  exact ⟨bits, execAdd_ok rfl hc hk ht, hb⟩

/-- An accepted `QRY` (R103). -/
theorem exec_qry_ok {key : List Byte} {s : State} (hc : s.cfgd = true) (hm : 1 ≤ s.m.toNat)
    (hk : key.length ≤ s.config.keyMax.toNat) :
    exec (.qry 0 key) s =
      .next (s.respond 0x03 .ok (boolWord ((probes key s.m s.k).all fun p => s.bitAt p.toNat))) :=
  execQry_ok rfl hc (ne_zero_of_one_le hm) hk

/-- With a filter of at least one bit a command always answers and never raises the fatal fault (R105). -/
theorem command_answers {i : Instr} {s t : State} (hi : i.isCommand = true) (hm : s.cfgd = true → 1 ≤ s.m.toNat)
    (h : exec i s = .next t) :
    OnlyAnswers s t ∨
      (∃ m k, i = .cfg 0 m k ∧ m ≠ 0 ∧ k ≠ 0 ∧ m.toNat ≤ s.config.mMax.toNat ∧ k.toNat ≤ s.config.kMax.toNat ∧
        t = (configured m k s).respond 0x01 .ok 0) ∨
      (∃ key u, i = .add 0 key ∧ s.cfgd = true ∧ key.length ≤ s.config.keyMax.toNat ∧
        setAll (probes key s.m s.k) s = .done u ∧ t = u.respond 0x02 .ok 0) := by
  rcases exec_cases h with ⟨-, h⟩ | h | h | ⟨key, u, -, hc, hu, rfl⟩ | ⟨key, -, hc, hu, rfl⟩ | ⟨r, h, -⟩ | ⟨h, -⟩ |
    ⟨p, rfl, -⟩ | ⟨p, rfl, -⟩ | ⟨v, h, -⟩
  · exact .inl h
  · exact .inr (.inl h)
  · exact .inr (.inr h)
  · obtain ⟨t, ht⟩ := setAll_completes (ps := probes key s.m s.k) hc
      fun p hp => probes_lt (ne_zero_of_one_le (hm hc)) hp
    rw [ht] at hu; cases hu
  · rw [getAll_eq hc fun p hp => probes_lt (ne_zero_of_one_le (hm hc)) hp] at hu; cases hu
  all_goals first | (rw [hi] at h; cases h) | cases hi

end Sys2Proof.Machine
end

