-- ==== Sys2Proof/Laws/PerInstr.lean ====
section
/-! SUPPORT. The family `PortWords`, one lemma per constructor: which port an instruction's words stand on, and the op code
they carry there (`30_encoding.md` R52, R58, R65, R66). -/

namespace Sys2Proof.Laws.PortWords

/-- A command is a frame whose header has the opcode table's `OPC` byte and announces the frame's own length; a
micro-operation is a request with the table's op code, and no command. -/
def Statement (i : Instr) : Prop :=
  i.encodable = true →
    match encode i with
    | .cmd [] => False
    | .cmd (hdr :: body) => i.isCommand = true ∧ opcOf hdr = i.opcByte ∧ frameLen hdr = 1 + body.length
    | .bs r => i.isCommand = false ∧ decodeBs r = i
    | .hp r => i.isCommand = false ∧ r.op = (match i with | .hpProbe _ _ _ => 1#1 | _ => 0#1)

theorem nop (rsv : BitVec 24) (arg : BitVec 32) : Statement (.nop rsv arg) :=
  fun _ => ⟨rfl, opcOf_header .., frameLen_header ..⟩

theorem cfg (rsv : BitVec 24) (m : BitVec 64) (k : BitVec 32) : Statement (.cfg rsv m k) :=
  fun _ => ⟨rfl, opcOf_header .., frameLen_header ..⟩

theorem add (rsv : BitVec 24) (key : List Byte) : Statement (.add rsv key) := by
  intro h
  refine ⟨rfl, opcOf_header .., ?_⟩
  rw [frameLen_header, packKey_length, Opcode.format, Format.beats, lenField_toNat h]

theorem qry (rsv : BitVec 24) (key : List Byte) : Statement (.qry rsv key) := by
  intro h
  refine ⟨rfl, opcOf_header .., ?_⟩
  rw [frameLen_header, packKey_length, Opcode.format, Format.beats, lenField_toNat h]

theorem hash (rsv : BitVec 24) (seed : BitVec 64) (key : List Byte) : Statement (.hash rsv seed key) := by
  intro h
  refine ⟨rfl, opcOf_header .., ?_⟩
  rw [frameLen_header, List.length_cons, packKey_length, Opcode.format, Format.beats, lenField_toNat h]
  omega

theorem bget (rsv : BitVec 24) (arg : BitVec 32) (pos : BitVec 64) : Statement (.bget rsv arg pos) :=
  fun _ => ⟨rfl, opcOf_header .., frameLen_header ..⟩

theorem rdw (rsv : BitVec 24) (arg : BitVec 32) (idx : BitVec 64) : Statement (.rdw rsv arg idx) :=
  fun _ => ⟨rfl, opcOf_header .., frameLen_header ..⟩

theorem stat (rsv : BitVec 24) (sel : BitVec 32) : Statement (.stat rsv sel) :=
  fun _ => ⟨rfl, opcOf_header .., frameLen_header ..⟩

theorem bsGet (pos : BitVec 64) : Statement (.bsGet pos) := fun _ => ⟨rfl, rfl⟩

theorem bsSet (pos : BitVec 64) : Statement (.bsSet pos) := fun _ => ⟨rfl, rfl⟩

theorem bsRdw (idx : BitVec 64) : Statement (.bsRdw idx) := fun _ => ⟨rfl, rfl⟩

theorem bsClear (n : BitVec 64) : Statement (.bsClear n) := fun _ => ⟨rfl, rfl⟩

theorem hpHash (seed : BitVec 64) (key : List Byte) : Statement (.hpHash seed key) := fun _ => ⟨rfl, rfl⟩

theorem hpProbe (seed m : BitVec 64) (key : List Byte) : Statement (.hpProbe seed m key) := fun _ => ⟨rfl, rfl⟩

end Sys2Proof.Laws.PortWords
end

