-- ==== Sys2Proof/Laws/Run.lean ====
section
/-! SUPPORT. What every instruction leaves alone on the ports, and the inductions over runs of instructions, packaged once. -/

namespace Sys2Proof.Machine

/-- A command always has a next state. -/
theorem exec_total {i : Instr} (s : State) (hi : i.isCommand = true) : ∃ t, exec i s = .next t := by
  cases i <;> cases hi
  all_goals simp only [exec, execNop, execCfg, execAdd, execQry, execHash, execBget, execRdw, execStat]
  all_goals repeat' (first | exact ⟨_, rfl⟩ | split)

theorem decodeBs_isCommand (r : BsReq) : (decodeBs r).isCommand = false := by
  unfold decodeBs; repeat' (first | rfl | split)

theorem decodeHp_isCommand (r : HpReq) : (decodeHp r).isCommand = false := by
  unfold decodeHp; split <;> rfl

/-- What no instruction touches, and what it can leave on the response port. -/
theorem exec_ports {i : Instr} {s t : State} (h : exec i s = .next t) :
    t.rx = s.rx ∧ t.bsReq = s.bsReq ∧ t.hpReq = s.hpReq ∧ t.cmd = s.cmd ∧ t.sent = s.sent ∧ t.config = s.config ∧
      t.rstN = s.rstN ∧ t.rspReady = s.rspReady ∧ t.epoch = s.epoch ∧ (t.rsp = s.rsp ∨ t.rsp.length = 2) := by
  rcases exec_cases h with ⟨-, o, c, w, rfl⟩ | ⟨m, k, -, -, -, -, -, rfl⟩ | ⟨key, u, -, -, -, hu, rfl⟩ |
    ⟨key, u, -, -, hu, rfl⟩ | ⟨key, -, -, -, rfl⟩ | ⟨r, -, rfl⟩ | ⟨-, rfl⟩ | ⟨p, -, -, rfl⟩ | ⟨n, -, -, rfl⟩ | ⟨v, -, rfl⟩
  · exact ⟨rfl, rfl, rfl, rfl, rfl, rfl, rfl, rfl, rfl, .inr rfl⟩
  · exact ⟨rfl, rfl, rfl, rfl, rfl, rfl, rfl, rfl, rfl, .inr rfl⟩
  · obtain ⟨b, rfl, -⟩ := setAll_done hu
    exact ⟨rfl, rfl, rfl, rfl, rfl, rfl, rfl, rfl, rfl, .inr rfl⟩
  · obtain ⟨b, rfl, -⟩ := setAll_fatal hu
    exact ⟨rfl, rfl, rfl, rfl, rfl, rfl, rfl, rfl, rfl, .inl rfl⟩
  all_goals exact ⟨rfl, rfl, rfl, rfl, rfl, rfl, rfl, rfl, rfl, .inl rfl⟩

/-- A micro-operation answers on its own port, not on the response port. -/
theorem exec_micro_rsp {i : Instr} {s t : State} (hi : i.isCommand = false) (h : exec i s = .next t) :
    t.rsp = s.rsp := by
  rcases exec_cases h with ⟨h, -⟩ | ⟨m, k, rfl, -⟩ | ⟨key, u, rfl, -⟩ | ⟨key, u, rfl, -⟩ | ⟨key, rfl, -⟩ | ⟨r, -, rfl⟩ |
    ⟨-, rfl⟩ | ⟨p, -, -, rfl⟩ | ⟨n, -, -, rfl⟩ | ⟨v, -, rfl⟩
  · rw [hi] at h; cases h
  all_goals first | rfl | cases hi

/-- The header of a response determines its fields (R60). -/
theorem rsp0_inj {o o' c c' : BitVec 8} (h : o ++ c ++ 0#48 = o' ++ c' ++ 0#48) : o = o' ∧ c = c' := by
  have g : ∀ i, (o ++ c ++ 0#48).getLsbD i = (o' ++ c' ++ 0#48).getLsbD i := fun i => by rw [h]
  constructor
  · apply BitVec.eq_of_getLsbD_eq
    intro i hi
    have := g (i + 56)
    simp only [BitVec.getLsbD_append] at this
    simpa [show ¬ (i + 56 < 48) by omega, show ¬ (i + 56 - 48 < 8) by omega,
      show i + 56 - 48 - 8 = i by omega] using this
  · apply BitVec.eq_of_getLsbD_eq
    intro i hi
    have := g (i + 48)
    simp only [BitVec.getLsbD_append] at this
    simpa [show ¬ (i + 48 < 48) by omega, hi] using this

/-! ## What the host still offers does not matter to a command -/

/-- The outcome with other beats offered. -/
def withCmd (c : List Beat) : Host.Outcome State Fault Refusal → Host.Outcome State Fault Refusal
  | .next t => .next { t with cmd := c }
  | .fault r => .fault r
  | .refused r => .refused r

theorem bsSet_withCmd (p : Word) (s : State) (c : List Beat) :
    bsSet p { s with cmd := c } = (bsSet p s).map fun t => { t with cmd := c } := by
  unfold bsSet
  by_cases h : s.posInRange p = true
  · rw [if_pos h, if_pos (show State.posInRange { s with cmd := c } p = true from h)]; rfl
  · rw [if_neg h, if_neg (show ¬ State.posInRange { s with cmd := c } p = true from h)]; rfl

theorem setAll_withCmd (ps : List Word) (s : State) (c : List Beat) :
    setAll ps { s with cmd := c } =
      match setAll ps s with
      | .done t => .done { t with cmd := c }
      | .fatal t => .fatal { t with cmd := c } := by
  induction ps generalizing s with
  | nil => rfl
  | cons p ps ih =>
    rw [setAll, setAll, bsSet_withCmd]
    cases bsSet p s with
    | none => rfl
    | some t => exact ih t

theorem getAll_withCmd (ps : List Word) (s : State) (c : List Beat) :
    getAll ps { s with cmd := c } = getAll ps s := by
  induction ps with
  | nil => rfl
  | cons p ps ih => rw [getAll, getAll, ih]; rfl

theorem exec_withCmd {i : Instr} (hi : i.isCommand = true) (s : State) (c : List Beat) :
    exec i { s with cmd := c } = withCmd c (exec i s) := by
  cases i <;> first | (cases hi; done) | skip
  case nop rsv arg => simp only [exec, execNop]; split <;> rfl
  case cfg rsv m k => simp only [exec, execCfg]; repeat' (first | rfl | split)
  case add rsv key =>
    simp only [exec, execAdd, setAll_withCmd]
    cases setAll (probes key s.m s.k) s <;> repeat' (first | rfl | split)
  case qry rsv key =>
    simp only [exec, execQry, getAll_withCmd]
    repeat' (first | rfl | split)
  case hash rsv seed key => simp only [exec, execHash]; repeat' (first | rfl | split)
  case bget rsv arg pos =>
    simp only [exec, execBget, show bsGet pos { s with cmd := c } = bsGet pos s from rfl]
    repeat' (first | rfl | split)
  case rdw rsv arg idx =>
    simp only [exec, execRdw, show bsRdw idx { s with cmd := c } = bsRdw idx s from rfl,
      show State.nwords { s with cmd := c } = s.nwords from rfl]
    repeat' (first | rfl | split)
  case stat rsv sel =>
    simp only [exec, execStat, show statRead sel { s with cmd := c } = statRead sel s from rfl]
    repeat' (first | rfl | split)

/-! ## Runs of instructions -/

theorem execAll_cons {i : Instr} {is : List Instr} {s t : State} (h : exec i s = .next t) :
    execAll (i :: is) s = execAll is t := by rw [execAll, h]

theorem execAll_cons_eq {i : Instr} {is : List Instr} {s t : State} (h : execAll (i :: is) s = .next t) :
    ∃ u, exec i s = .next u ∧ execAll is u = .next t := by
  unfold execAll at h
  split at h
  · exact ⟨_, ‹_›, h⟩
  · cases h
  · cases h

/-- A relation that is reflexive and transitive, and that every instruction of a run keeps, holds from end to end. The
parameters `c` of the instance stay the same all along. -/
theorem execAll_induct {P : State → State → Prop} {c : Config} (refl : ∀ s, P s s)
    (trans : ∀ a b c, P a b → P b c → P a c) {is : List Instr}
    (hs : ∀ i ∈ is, ∀ s t, s.config = c → exec i s = .next t → P s t) {s t : State} (hc : s.config = c)
    (h : execAll is s = .next t) : P s t := by
  induction is generalizing s with
  | nil => cases h; exact refl _
  | cons i is ih =>
    obtain ⟨u, hu, h⟩ := execAll_cons_eq h
    exact trans _ _ _ (hs i List.mem_cons_self _ _ hc hu)
      (ih (fun j hj => hs j (List.mem_cons_of_mem _ hj)) ((exec_ports hu).2.2.2.2.2.1.trans hc) h)

end Sys2Proof.Machine
end

