-- ==== Sys2Proof/Tests/Slice0.lean ====
section
/-! SUPPORT. The model's own tests. Expected values are those of `95_test_vectors.md` (the vector is named) or of the encodings
of `30_encoding.md`, written out by hand; then one witness theorem for each statement that has hypotheses. -/

namespace Sys2Proof.Tests

open Sys2Proof.Machine

/-! ## Helpers -/

/-- A block with a filter, its words written, the reference configuration. -/
def filter (m : BitVec 64) (k : BitVec 32) (words : List Word) : State :=
  { State.reset with m := m, k := k, cfgd := true, bits := (List.range words.length).zip words }

/-- V-F8 after `ADD Z17`: `M = 65`, `K = 3`, bits 49, 44, 18 set. -/
def sample : State := filter 65 3 [0x0002100000040000, 0]

/-- The beats offered to a block just out of reset. -/
def offered (s : State) (beats : List Beat) : State := { s with cmd := beats }

/-- What the next step puts on the response port. -/
def answer (s : State) (beats : List Beat) : List Beat :=
  match step (offered s beats) with
  | .next t => t.rsp
  | .fault _ => []
  | .refused _ => []

/-- The state an outcome holds. -/
def after (s : State) : Host.Outcome State Fault Refusal → State
  | .next t => t
  | .fault _ => s
  | .refused _ => s

/-- The step stops with this fault. -/
def stops (o : Host.Outcome State Fault Refusal) (f : Fault) : Bool :=
  match o with
  | .fault g => g == f
  | .next _ => false
  | .refused _ => false

/-! ## WellFormed: an ill-formed term for each check -/

theorem test_wf_nop_rsv : (Instr.nop 1 0).wf = false := by decide
theorem test_wf_nop_arg : (Instr.nop 0 1).wf = false := by decide
theorem test_wf_cfg_rsv : (Instr.cfg 1 8 1).wf = false := by decide
theorem test_wf_add_rsv : (Instr.add 1 []).wf = false := by decide
theorem test_wf_qry_rsv : (Instr.qry 1 []).wf = false := by decide
theorem test_wf_hash_rsv : (Instr.hash 1 0 []).wf = false := by decide
theorem test_wf_bget_rsv : (Instr.bget 1 0 0).wf = false := by decide
theorem test_wf_bget_arg : (Instr.bget 0 1 0).wf = false := by decide
theorem test_wf_rdw_rsv : (Instr.rdw 1 0 0).wf = false := by decide
theorem test_wf_rdw_arg : (Instr.rdw 0 1 0).wf = false := by decide
theorem test_wf_stat_rsv : (Instr.stat 1 0).wf = false := by decide
theorem test_wf_stat_sel : (Instr.stat 0 8).wf = false := by decide
theorem test_wf_bsClear_low : (Instr.bsClear 0).wf = false := by decide
theorem test_wf_bsClear_high : (Instr.bsClear 0x0400000000000001).wf = false := by decide
theorem test_wf_hpProbe_mod : (Instr.hpProbe 0 0 []).wf = false := by decide
theorem test_wf_hpProbe_seed : (Instr.hpProbe 0x100000000 1 []).wf = false := by decide
theorem test_wf_accepts : (Instr.cfg 0 1000 3).wf = true ∧ (Instr.stat 0 7).wf = true ∧
    (Instr.bsClear 0x0400000000000000).wf = true ∧ (Instr.hpProbe 0xffffffff 1 []).wf = true := by decide

/-- A key of `2^32` bytes has no length field. -/
theorem test_wf_key_too_long (b : Byte) : keyFits (List.replicate (2 ^ 32) b) = false := by
  rw [keyFits, List.length_replicate]; decide

/-! ## Decoding: every constructor's words, written from R52 to R58, R65, R66 -/

/-- V-O1: `OPC = 0x00`. -/
theorem test_decode_nop : decodeBeats [0x0000000000000000] = .instr (.nop 0 0) [] := by decide
/-- R101: `CFG 1000, 3` has `k` in the header and `m` in `X0`. -/
theorem test_decode_cfg : decodeBeats [0x0100000000000003, 0x00000000000003e8] = .instr (.cfg 0 1000 3) [] := by decide
/-- R102: `ADD "exemplo1"`. -/
theorem test_decode_add : decodeBeats [0x0200000000000008, 0x316f6c706d657865] =
    .instr (.add 0 [0x65, 0x78, 0x65, 0x6d, 0x70, 0x6c, 0x6f, 0x31]) [] := by decide
/-- `QRY "abc"`, with junk in the ignored lanes (R55). -/
theorem test_decode_qry : decodeBeats [0x0300000000000003, 0xffffffffff636261] =
    .instr (.qry 0 [0x61, 0x62, 0x63]) [] := by decide
/-- V-O12: `HASH 0, "abcdefghi"`. -/
theorem test_decode_hash : decodeBeats [0x0400000000000009, 0x0000000000000000, 0x6867666564636261,
    0xdeadbeefcafef069] =
    .instr (.hash 0 0 [0x61, 0x62, 0x63, 0x64, 0x65, 0x66, 0x67, 0x68, 0x69]) [] := by decide
/-- V-E5: `BGET` with `RSV = 0xffffff`. -/
theorem test_decode_bget : decodeBeats [0x05ffffff00000000, 0xffffffffffffffff] =
    .instr (.bget 0xffffff 0 0xffffffffffffffff) [] := by decide
/-- V-E7: `RDW` with `ARG = 1`. -/
theorem test_decode_rdw : decodeBeats [0x0600000000000001, 0x0000000000000000] = .instr (.rdw 0 1 0) [] := by decide
/-- V-E17: `STAT 8`. -/
theorem test_decode_stat : decodeBeats [0x0700000000000008] = .instr (.stat 0 8) [] := by decide
/-- R65: `bs_req_op = 0b00`. -/
theorem test_decode_bsGet : decodeBs ⟨0b00, 906⟩ = .bsGet 906 := by decide
/-- R65: `bs_req_op = 0b01`. -/
theorem test_decode_bsSet : decodeBs ⟨0b01, 906⟩ = .bsSet 906 := by decide
/-- R65: `bs_req_op = 0b10`. -/
theorem test_decode_bsRdw : decodeBs ⟨0b10, 14⟩ = .bsRdw 14 := by decide
/-- R65: `bs_req_op = 0b11`. -/
theorem test_decode_bsClear : decodeBs ⟨0b11, 16⟩ = .bsClear 16 := by decide
/-- R66: `hp_req_op = 0`; `hp_req_mod` is ignored. -/
theorem test_decode_hpHash : decodeHp ⟨0, 7, 9, 3, [0xffffffffff636261]⟩ = .hpHash 7 [0x61, 0x62, 0x63] := by decide
/-- R66: `hp_req_op = 1`. -/
theorem test_decode_hpProbe : decodeHp ⟨1, 2, 1000, 1, [0x61]⟩ = .hpProbe 2 1000 [0x61] := by decide

/-- V-E13: an unassigned opcode takes one beat. -/
theorem test_decode_unassigned : decodeBeats [0xffffffffffffffff, 0x0700000000000000] =
    .unassigned 0xff [0x0700000000000000] := by decide
/-- V-W18: an incomplete frame. -/
theorem test_decode_incomplete : decodeBeats [0x0100000000000003] = .incomplete := by decide
/-- V-W1 to V-W14: frame lengths. -/
theorem test_frame_len : [0x0000000000000000, 0x0700000000000008, 0x0100000000000003, 0x0500000000000001,
      0x0200000000000000, 0x0200000000000001, 0x0200000000000008, 0x0300000000000009, 0x0200000100000010,
      0x0400000000000000, 0x0400000000000011, 0x0200000000001001, 0x04000000ffffffff, 0x0a00000000000008].map frameLen =
    [1, 1, 2, 2, 1, 2, 2, 3, 3, 2, 5, 514, 536870914, 1] := by decide
/-- V-W16: a refused command's payload is not read as a command. -/
theorem test_decode_swallows : decodeBeats [0x0200000000000010, 0x0100000000000002, 0x0000000000000040,
    0x0700000000000001] =
    .instr (.add 0 [2, 0, 0, 0, 0, 0, 0, 1, 0x40, 0, 0, 0, 0, 0, 0, 0]) [0x0700000000000001] := by decide
/-- The encoder writes the frames of R101 and R112. -/
theorem test_encode : encode (.cfg 0 1000 3) = .cmd [0x0100000000000003, 0x00000000000003e8] ∧
    encode (.hash 0 0 [0x61]) = .cmd [0x0400000000000001, 0x0000000000000000, 0x0000000000000061] := by decide

/-- Every row of the opcode table, by its match word. -/
theorem test_table_words : decodeTableWord 64 0 = some (.nop 0 0) ∧
    decodeTableWord 64 0x0100000000000000 = some (.cfg 0 0 0) ∧
    decodeTableWord 64 0x0200000000000000 = some (.add 0 []) ∧
    decodeTableWord 64 0x0300000000000000 = some (.qry 0 []) ∧
    decodeTableWord 64 0x0400000000000000 = some (.hash 0 0 []) ∧
    decodeTableWord 64 0x0500000000000000 = some (.bget 0 0 0) ∧
    decodeTableWord 64 0x0600000000000000 = some (.rdw 0 0 0) ∧
    decodeTableWord 64 0x0700000000000000 = some (.stat 0 0) ∧
    decodeTableWord 64 0x0800000000000000 = none := by decide

theorem test_table_requests : [0, 1, 2, 3].map (decodeTableWord 2) =
      [some (.bsGet 0), some (.bsSet 0), some (.bsRdw 0), some (.bsClear 0)] ∧
    [0, 1].map (decodeTableWord 1) = [some (.hpHash 0 []), some (.hpProbe 0 0 [])] := by decide

/-- A table word placed after reset is what the next step runs. -/
theorem test_withFetchWord : (after .reset (step (State.reset.withFetchWord 64 0x0700000000000000))).rsp =
      [0x0700000000000000, 0x424c4d4600000001] ∧
    (after .reset (step (State.reset.withFetchWord 2 3))).bsRsp = some (.data 0) := by decide

/-! ## Instructions -/

/-- V-O1. -/
theorem test_nop : answer .reset [0x0000000000000000] = [0x0000000000000000, 0x0000000000000000] := by decide
/-- V-E15. -/
theorem test_nop_illegal : answer .reset [0x0000000000000001] = [0x0001000000000000, 0x0000000000000000] := by decide

/-- V-O2, V-O5. -/
theorem test_stat_constants : answer .reset [0x0700000000000000] = [0x0700000000000000, 0x424c4d4600000001] ∧
    answer .reset [0x0700000000000005] = [0x0700000000000000, 0x0000000000010000] ∧
    answer .reset [0x0700000000000006] = [0x0700000000000000, 0x00000000000000ff] ∧
    answer .reset [0x0700000000000007] = [0x0700000000000000, 0x0000000000001000] := by decide
/-- V-O6, V-O7. -/
theorem test_stat_registers : answer (filter 1000 3 []) [0x0700000000000004] =
      [0x0700000000000000, 0x0000000000000010] ∧
    answer { filter 1 1 [1] with lasterr := 5 } [0x0700000000000001] =
      [0x0700000000000000, 0x0000000000000501] := by decide

/-- R101's example and V-F12: sixteen words cleared, no other; an old filter gone. -/
theorem test_cfg : answer .reset [0x0100000000000003, 0x00000000000003e8] = [0x0100000000000000, 0] ∧
    (after .reset (execCfg 0 1000 3 .reset)).bits = (List.range 16).map (fun w => (w, 0)) ∧
    (after .reset (execCfg 0 128 1 (filter 64 2 [0x0800000000020000]))).bits = [(0, 0), (1, 0)] := by decide
/-- V-E3, V-E19. -/
theorem test_cfg_errors : answer .reset [0x010000000000012c, 0x0000000000000000] = [0x0102000000000000, 0] ∧
    answer .reset [0x0100000000000003, 0x0000000000010001] = [0x0103000000000000, 0] := by decide

/-- V-F2: probes 59 and 17. -/
theorem test_add : (after .reset (execAdd 0 [0x61, 0x62, 0x63] (filter 64 2 [0]))).bits = [(0, 0x0800000000020000)] := by
  decide +kernel
/-- V-F9: the second word of a 65-bit filter. -/
theorem test_add_second_word : (after .reset (execAdd 0 [0x43] sample)).bits =
    [(0, 0x0402100000040000), (1, 0x0000000000000001)] := by decide +kernel

/-- V-F6: a false positive for `"c"`, and `"f"` absent. -/
theorem test_qry_false_positive : answer (filter 8 2 [0xa6]) [0x0300000000000001, 0x63] = [0x0300000000000000, 1] := by
  decide +kernel
/-- V-F3, V-F2: `"abd"` before and after it is added. -/
theorem test_qry : answer (filter 64 2 [0x0800000000020000]) [0x0300000000000003, 0x646261] = [0x0300000000000000, 0] ∧
    answer (filter 64 2 [0x0800000480020000]) [0x0300000000000003, 0x646261] = [0x0300000000000000, 1] := by
  decide +kernel

/-- V-O8, V-O11. -/
theorem test_hash : answer .reset [0x0400000000000001, 0, 0x61] = [0x0400000000000000, 0x071717d2d36b6b11] ∧
    answer .reset [0x0400000000000011, 0xffffffffffffffff, 0x0706050403020100, 0x0f0e0d0c0b0a0908, 0x10] =
      [0x0400000000000000, 0x8a96c46e83ab7cb0] := by decide +kernel

/-- V-O14. -/
theorem test_bget : answer sample [0x0500000000000000, 49] = [0x0500000000000000, 1] ∧
    answer sample [0x0500000000000000, 48] = [0x0500000000000000, 0] ∧
    answer sample [0x0500000000000000, 65] = [0x0505000000000000, 0] := by decide
/-- V-E5, V-E8. -/
theorem test_bget_errors : answer sample [0x05ffffff00000000, 0xffffffffffffffff] = [0x0501000000000000, 0] ∧
    answer .reset [0x0500000000000000, 0] = [0x0504000000000000, 0] := by decide

/-- V-O15. -/
theorem test_rdw : answer sample [0x0600000000000000, 0] = [0x0600000000000000, 0x0002100000040000] ∧
    answer sample [0x0600000000000000, 2] = [0x0605000000000000, 0] := by decide

/-- V-B11. -/
theorem test_bsGet : (after .reset (execBsGet 906 (filter 1000 3 (List.replicate 14 0 ++ [0x400, 0])))).bsRsp =
      some (.data 1) ∧
    (after .reset (execBsGet 907 (filter 1000 3 (List.replicate 14 0 ++ [0x400, 0])))).bsRsp =
      some (.data 0) := by decide
/-- V-B19, V-B21, V-B22: the fatal fault. -/
theorem test_bsGet_fatal : (after .reset (execBsGet 64 (filter 64 3 [0]))).fatal = true ∧
    (after .reset (execBsGet 0 .reset)).fatal = true ∧
    (after .reset (execBsGet 65 sample)).bsRsp = some .bitRange := by decide

/-- V-B16. -/
theorem test_bsSet : (after .reset (execBsSet 63 (filter 65 3 [0, 0]))).bits = [(0, 0x8000000000000000), (1, 0)] ∧
    (after .reset (execBsSet 64 (filter 65 3 [0, 0]))).bits = [(0, 0), (1, 0x0000000000000001)] := by decide
/-- V-B18: nothing is written. -/
theorem test_bsSet_fatal : (after .reset (execBsSet 65 sample)).bits = sample.bits ∧
    (after .reset (execBsSet 65 sample)).fatal = true := by decide

/-- V-B14, V-B20. -/
theorem test_bsRdw : (after .reset (execBsRdw 0 sample)).bsRsp = some (.data 0x0002100000040000) ∧
    (after .reset (execBsRdw 1 (filter 64 3 [0]))).fatal = true := by decide

/-- R81: the words below `n`, and no other. -/
theorem test_bsClear : (after .reset (execBsClear 2 (filter 1000 3 [7, 7, 7]))).bits = [(0, 0), (1, 0), (2, 7)] := by
  decide
/-- `NW_MAX` is 1024. -/
theorem test_bsClear_bound : stops (execBsClear 1025 .reset) .clearBeyondStore = true := by decide

/-- V-H1, V-H4, V-H14, V-H15, V-H17, V-H21, V-H22, V-H25, V-H26. -/
theorem test_hpHash : hpHash [] 0 = 0 ∧ hpHash [] 0xffffffffffffffff = 0xb0d9485c2cd761b2 ∧
    hpHash [0x61, 0x62, 0x63, 0x64, 0x65, 0x66, 0x67] 0 = 0x241aa52b0a62005d ∧
    hpHash [0x61, 0x62, 0x63, 0x64, 0x65, 0x66, 0x67, 0x68] 0 = 0xafdb0257ff41aa98 ∧
    hpHash [0x61, 0x62, 0x63, 0x64, 0x65, 0x66, 0x67, 0x68, 0x69] 0 = 0xc9b9d84356146ac2 ∧
    hpHash [0x00] 0 = 0x5825f5f3bd962979 ∧ hpHash [0x00, 0x00] 0 = 0xb04bebe77b2c52f3 ∧
    hpHash (List.replicate 7 0xff) 5 = 0x04c4e88d80aeaab4 ∧ hpHash [0x80] 0 = 0xb9de922ee03a4547 := by decide +kernel
/-- V-H18: two chunks. -/
theorem test_hpHash_chunks : (after .reset (execHpHash 0 ((List.range 16).map (BitVec.ofNat 8)) .reset)).hpRsp =
    some 0xe6709e192441a2f3 := by decide +kernel

/-- V-P3: a hash above `2^63`. -/
theorem test_hpProbe : (after .reset (execHpProbe 2 1000 [0x65, 0x78, 0x65, 0x6d, 0x70, 0x6c, 0x6f, 0x31] .reset)).hpRsp =
    some 228 := by decide +kernel
/-- V-P12, V-P4, V-P22. -/
theorem test_hpProbe_small : [0, 1, 2].map (fun i => hpProbe [0x43] i 65) = [64, 49, 58] ∧ hpProbe [] 0 1000 = 0 ∧
    hpProbe [0x61] 1 1 = 0 := by decide +kernel

/-! ## Steps -/

/-- V-W15, fourth frame: the echo of an unassigned opcode. -/
theorem test_step_unassigned : answer sample [0x0900000000000005, 0x0300000000000003] = [0x0901000000000000, 0] := by
  decide
/-- V-W18. -/
theorem test_step_incomplete : step (offered .reset [0x0100000000000003]) =
    .next { State.reset with rx := [0x0100000000000003] } := rfl
/-- V-Z3: only reset leaves the fatal state. -/
theorem test_step_fatal : stops (step { State.reset with fatal := true }) .fatalStop = true ∧
    (after .reset (step { State.reset with fatal := true, rstN := false })).fatal = false := by decide

/-- R63: the text of the spec's own examples. -/
theorem test_asm : assemble ["NEW 1000, 3 ; construct".toList, "ADD \"exemplo1\"".toList, "STAT NWORDS".toList,
      "HASH 0, x\"61\"".toList, ".beat 0xff".toList, "".toList] =
    some [0x0100000000000003, 0x00000000000003e8, 0x0200000000000008, 0x316f6c706d657865, 0x0700000000000004,
      0x0400000000000001, 0, 0x61, 0xff] := by decide

/-! ## Witnesses: for each statement with hypotheses, states and operands that meet them, each clause at its boundary -/

/-- The sample meets the machine's invariant. -/
theorem sample_inv : sample.Inv := by
  refine ⟨by decide, by unfold State.geometryOk; decide, ⟨by decide, fun w v h => ?_⟩, fun _ => ⟨fun w h => ?_, ?_⟩,
    by unfold State.lasterrOk; decide, by unfold State.portsOk; decide⟩
  · have h : (if 0 = w then some (0x0002100000040000 : Word) else if 1 = w then some 0 else none) = some v := h
    show w < 1024
    split at h
    · omega
    · split at h
      · omega
      · cases h
  · have h : w < 2 := h
    interval_cases w <;> rfl
  · have h : ∀ j, j < 63 → sample.bitAt (65 + j) = false := by decide
    intro pos h1 h2
    have h1 : 65 ≤ pos := h1
    have h2 : pos < 64 * 2 := h2
    have := h (pos - 65) (by omega)
    rwa [show 65 + (pos - 65) = pos by omega] at this

theorem witness_ResetPinDropsEverything : ({ State.reset with rstN := false, fatal := true } : State).rstN = false := rfl

theorem witness_NopOnlyAnswers : ((0 : BitVec 24) = 0 ∧ (0 : BitVec 32) = 0) ∧
    ((1 : BitVec 24) ≠ 0 ∨ (0 : BitVec 32) ≠ 0) ∧ ((0 : BitVec 24) ≠ 0 ∨ (1 : BitVec 32) ≠ 0) := by decide

theorem witness_StatReadsTheRegisterMap : ((0 : BitVec 24) = 0 ∧ (7 : BitVec 32).toNat ≤ 7) ∧
    ((0 : BitVec 24) ≠ 0 ∨ 7 < (8 : BitVec 32).toNat) := by decide

/-- An instance with `KEY_MAX = 3`, so that the boundary keys are short. -/
def smallKeys : State := { sample with config := ⟨65536, 255, 3⟩ }

theorem witness_HashAnswersTheHash :
    ((0 : BitVec 24) = 0 ∧ [0x61, 0x62, (0x63 : Byte)].length ≤ smallKeys.config.keyMax.toNat) ∧ (1 : BitVec 24) ≠ 0 ∧
    ((0 : BitVec 24) = 0 ∧ smallKeys.config.keyMax.toNat < [0x61, 0x62, 0x63, (0x64 : Byte)].length) := by decide

theorem witness_BgetAnswersOneBit :
    ((0 : BitVec 24) = 0 ∧ (0 : BitVec 32) = 0 ∧ sample.cfgd = true ∧ (64 : BitVec 64).toNat < sample.m.toNat) ∧
    ((0 : BitVec 24) ≠ 0 ∨ (1 : BitVec 32) ≠ 0) ∧ State.reset.cfgd = false ∧
    (sample.cfgd = true ∧ sample.m.toNat ≤ (65 : BitVec 64).toNat) := by decide

theorem witness_RdwAnswersOneWord :
    (sample.cfgd = true ∧ (1 : BitVec 64).toNat < (sample.m.toNat + 63) / 64) ∧
    ((0 : BitVec 24) ≠ 0 ∨ (1 : BitVec 32) ≠ 0) ∧ State.reset.cfgd = false ∧
    (sample.cfgd = true ∧ (sample.m.toNat + 63) / 64 ≤ (2 : BitVec 64).toNat) := by decide

theorem witness_CfgConstructsAnEmptyFilter :
    (1 ≤ (65536 : BitVec 64).toNat ∧ (65536 : BitVec 64).toNat ≤ State.reset.config.mMax.toNat ∧
      1 ≤ (255 : BitVec 32).toNat ∧ (255 : BitVec 32).toNat ≤ State.reset.config.kMax.toNat) ∧
    (1 ≤ (1 : BitVec 64).toNat ∧ 1 ≤ (1 : BitVec 32).toNat) := by decide

theorem witness_CfgRefusesAndKeepsTheFilter : (1 : BitVec 24) ≠ 0 ∧
    ((0 : BitVec 24) = 0 ∧ ((0 : BitVec 64) = 0 ∨ (300 : BitVec 32) = 0)) ∧
    ((65537 : BitVec 64) ≠ 0 ∧ (3 : BitVec 32) ≠ 0 ∧ sample.config.mMax.toNat < (65537 : BitVec 64).toNat) ∧
    ((64 : BitVec 64) ≠ 0 ∧ (256 : BitVec 32) ≠ 0 ∧ sample.config.kMax.toNat < (256 : BitVec 32).toNat) := by decide

theorem witness_AddSetsExactlyTheProbes :
    sample.cfgd = true ∧ 1 ≤ sample.m.toNat ∧ [(0x43 : Byte)].length ≤ sample.config.keyMax.toNat := by decide

/-- V-F8: every probe of `Z17` is set, the first probe of `"C"` is not. -/
theorem witness_QryTestsAllTheProbes :
    (sample.cfgd = true ∧ 1 ≤ sample.m.toNat ∧ [(0x43 : Byte)].length ≤ sample.config.keyMax.toNat) ∧
    (∀ i, i < sample.k.toNat → sample.bitAt
      ((hpHash ((List.range 17).map (BitVec.ofNat 8)) (BitVec.ofNat 64 i)).toNat % sample.m.toNat) = true) ∧
    (∃ i, i < sample.k.toNat ∧ sample.bitAt ((hpHash [0x43] (BitVec.ofNat 64 i)).toNat % sample.m.toNat) = false) :=
  ⟨by decide, by decide +kernel, 0, by decide, by decide +kernel⟩

theorem witness_AddAndQryRefuse : (1 : BitVec 24) ≠ 0 ∧ ((0 : BitVec 24) = 0 ∧ State.reset.cfgd = false) ∧
    ((0 : BitVec 24) = 0 ∧ smallKeys.cfgd = true ∧
      smallKeys.config.keyMax.toNat < [0x61, 0x62, 0x63, (0x64 : Byte)].length) := by decide

theorem witness_BsGetAnswersTheBit : sample.cfgd = true ∧ (64 : BitVec 64).toNat < sample.m.toNat := by decide

theorem witness_BsSetRewritesOneWord : sample.cfgd = true ∧ (0 : BitVec 64).toNat < sample.m.toNat := by decide

theorem witness_BsRdwAnswersTheWord : sample.cfgd = true ∧ (1 : BitVec 64).toNat < (sample.m.toNat + 63) / 64 := by
  decide

theorem witness_BsClearZeroesTheFirstWords :
    (0 : BitVec 64).toNat ≤ (State.reset.config.mMax.toNat + 63) / 64 ∧
    (1024 : BitVec 64).toNat ≤ (State.reset.config.mMax.toNat + 63) / 64 ∧
    (State.reset.config.mMax.toNat + 63) / 64 < (1025 : BitVec 64).toNat := by decide

theorem witness_OutOfRangeRequestIsFatal :
    ((sample.cfgd = false ∨ sample.m.toNat ≤ (65 : BitVec 64).toNat) ∧
      (State.reset.cfgd = false ∨ State.reset.m.toNat ≤ (0 : BitVec 64).toNat) ∧
      (sample.cfgd = false ∨ (sample.m.toNat + 63) / 64 ≤ (2 : BitVec 64).toNat) ∧ sample.rstN = true) ∧
    ((Instr.nop 0 0).isCommand = true ∧ sample.Inv ∧ sample.fatal = false ∧
      ∃ t, exec (.nop 0 0) sample = .next t) :=
  ⟨by decide, rfl, sample_inv, rfl, _, rfl⟩

theorem witness_HpProbeAnswersTheRemainder : (1 : BitVec 64) ≠ 0 ∧ (0 : BitVec 64) = 0 := by decide

/-- V-H28, V-H29. -/
theorem witness_ShortKeysHashBySeedXorTail :
    (1 ≤ [(0x64 : Byte)].length ∧ [(0x64 : Byte)].length ≤ 7 ∧ [(0x65 : Byte)].length = [(0x64 : Byte)].length ∧
      (0 : Word) ^^^ leWord [0x64] = 1 ^^^ leWord [0x65]) ∧
    ((List.replicate 7 (0xff : Byte)).length ≤ 7) := by decide

theorem witness_PayloadBeatsAreChunks : (9 + 7) / 8 ≤ [(0x6867666564636261 : Beat), 0xdeadbeefcafef069].length ∧
    8 < 9 ∧ 0 < 9 / 8 ∧ 9 % 8 ≠ 0 := by decide

theorem witness_FrameLengthByOpcodeAndArg : [(0 : Beat)].length + 1 < frameLen 0x0300000000000009 ∧
    frameLen 0x0300000000000009 ≤ [(0 : Beat), 0].length + 1 ∧ (0x0700000000000008 : Beat).toNat / 2 ^ 56 = 0x07 ∧
    (0x0600000000000001 : Beat).toNat / 2 ^ 56 = 0x06 ∧ (0x0300000000000009 : Beat).toNat / 2 ^ 56 = 0x03 ∧
    (0x04000000ffffffff : Beat).toNat / 2 ^ 56 = 0x04 ∧ 0x08 ≤ (0x0800000000000000 : Beat).toNat / 2 ^ 56 := by decide

theorem witness_DecodeOfEncodeIsIdentity : (Instr.hash 0xffffff 7 [0x61, 0x62]).encodable = true ∧
    (Instr.hpProbe 2 1000 [0x61]).encodable = true := by decide

theorem witness_FramesAreSelfDelimiting : (Instr.add 0 [0x61]).encodable = true ∧
    encode (.add 0 [0x61]) = .cmd [0x0200000000000001, 0x61] := by decide

/-- A command with no key; a `HASH` with one whole payload beat and one partly used (V-O12); an empty key. -/
theorem witness_EncodeOfDecodeIsTheFrame :
    decodeBeats [0x0500000000000000, 7] = .instr (.bget 0 0 7) [] ∧ (Instr.bget 0 0 7).hasKey = false ∧
    decodeBeats [0x0400000000000009, 7, 0x6867666564636261, 0xdeadbeefcafef069, 0] =
      .instr (.hash 0 7 [0x61, 0x62, 0x63, 0x64, 0x65, 0x66, 0x67, 0x68, 0x69]) [0] ∧
    (Instr.hash 0 7 [0x61, 0x62, 0x63, 0x64, 0x65, 0x66, 0x67, 0x68, 0x69]).hasKey = true ∧
    decodeBeats [0x0400000000000000, 7] = .instr (.hash 0 7 []) [] ∧ (Instr.hash 0 7 []).hasKey = true := by decide

theorem witness_UnassignedOpcodeIsAnswered :
    (offered .reset [0x0800000000000000]).rstN = true ∧ (offered .reset [0x0800000000000000]).fatal = false ∧
    (offered .reset [0x0800000000000000]).bsReq = none ∧ (offered .reset [0x0800000000000000]).hpReq = none ∧
    (offered .reset [0x0800000000000000]).rsp = [] ∧ (offered .reset [0x0800000000000000]).rx = [] ∧
    0x08 ≤ (0x0800000000000000 : Beat).toNat / 2 ^ 56 := by decide

/-- A frame that began in an earlier step, a bit-store request, and a hash request. -/
theorem witness_StepRunsTheDecodedInstruction :
    (sample.rstN = true ∧ sample.fatal = false) ∧
    decodeBeats (({ sample with rx := [0x0100000000000003], cmd := [8, 0] } : State).rx ++
      ({ sample with rx := [0x0100000000000003], cmd := [8, 0] } : State).cmd) = .instr (.cfg 0 8 3) [0] ∧
    ({ sample with bsReq := some ⟨0, 64⟩ } : State).bsReq = some ⟨0, 64⟩ ∧
    (({ sample with hpReq := some ⟨0, 0, 0, 0, []⟩ } : State).bsReq = none ∧
      ({ sample with hpReq := some ⟨0, 0, 0, 0, []⟩ } : State).hpReq = some ⟨0, 0, 0, 0, []⟩) := by decide

theorem witness_StepRunsTheEncodedInstruction : (Instr.stat 0 7).encodable = true := rfl

theorem witness_IncompleteFrameWaits : sample.rstN = true ∧ sample.fatal = false ∧ sample.bsReq = none ∧
    sample.hpReq = none ∧ sample.rsp = [] ∧
    decodeBeats ((offered sample [0x0400000000000011, 0]).rx ++ (offered sample [0x0400000000000011, 0]).cmd) =
      .incomplete := by decide

theorem witness_IdleBlockHoldsItsState : sample.runEnded = true := rfl

/-- A state with a response waiting, the host ready and not ready. -/
theorem witness_ResponseGoesBeforeTheNextCommand :
    (({ sample with rsp := [1, 2] } : State).rsp = 1 :: [2] ∧ ({ sample with rsp := [1, 2] } : State).rspReady = true ∧
      sample.rstN = true ∧ sample.fatal = false ∧ sample.bsReq = none ∧ sample.hpReq = none) ∧
    ({ sample with rsp := [1, 2], rspReady := false } : State).rspReady = false := by decide

/-- The sample holds the key `Z17` (V-F8). -/
theorem sample_holds : sample.holds ((List.range 17).map (BitVec.ofNat 8)) :=
  List.all_eq_true.1 (show ((probes ((List.range 17).map (BitVec.ofNat 8)) 65 3).all fun p =>
    sample.bitAt p.toNat) = true by decide +kernel)

/-- The sample with an `ADD` of the empty key on the command port. -/
def addOffered : State := offered sample [0x0200000000000000]

theorem addOffered_decodes : decodeBeats (addOffered.rx ++ addOffered.cmd) = .instr (.add 0 []) [] := by decide

/-- An `ADD` taken from the command port. -/
theorem witness_MembershipSurvivesEveryStep : addOffered.rstN = true ∧ addOffered.cfgd = true ∧
    addOffered.holds ((List.range 17).map (BitVec.ofNat 8)) ∧
    (addOffered.bsReq = none → addOffered.hpReq = none → addOffered.rsp = [] →
      ∀ i rest, decodeBeats (addOffered.rx ++ addOffered.cmd) = .instr i rest →
        i.rebuilds addOffered.config = false) ∧
    (∀ r, addOffered.bsReq = some r → (decodeBs r).rebuilds addOffered.config = false) ∧
    ∃ t, step addOffered = .next t := by
  refine ⟨rfl, rfl, sample_holds, ?_, ?_, ?_⟩
  · intro _ _ _ i rest h
    rw [addOffered_decodes] at h
    injection h with h
    subst h; rfl
  · intro r h
    cases show none = some r from h
  · obtain ⟨t, ht⟩ := exec_total (addOffered.takeFrame []) (i := .add 0 []) rfl
    exact ⟨t, (step_command rfl rfl rfl rfl rfl addOffered_decodes).trans ht⟩

/-- A legal `CFG` offered while a response waits, and while a bit-store request waits: neither step takes it. -/
theorem witness_MembershipSurvivesEveryStep_not_taken :
    (({ sample with rsp := [1, 2], cmd := [0x0100000000000001, 8] } : State).rsp ≠ [] ∧
      decodeBeats [0x0100000000000001, 8] = .instr (.cfg 0 8 1) [] ∧
      (Instr.cfg 0 8 1).rebuilds sample.config = true ∧
      ∃ t, step { sample with rsp := [1, 2], cmd := [0x0100000000000001, 8] } = .next t) ∧
    (({ sample with bsReq := some ⟨1, 64⟩, cmd := [0x0100000000000001, 8] } : State).bsReq ≠ none ∧
      (decodeBs ⟨1, 64⟩).rebuilds sample.config = false ∧
      ∃ t, step { sample with bsReq := some ⟨1, 64⟩, cmd := [0x0100000000000001, 8] } = .next t) :=
  ⟨⟨by decide, by decide, by decide, _, step_response (b := 1) (bs := [2]) rfl rfl rfl rfl rfl⟩,
    by decide, by decide, _, (step_bs (r := ⟨1, 64⟩) rfl rfl rfl).trans (execBsSet_ok (s := { sample with cmd := [0x0100000000000001, 8] }) (pos := 64) (by decide))⟩

/-- `Z17` answers 1, and an `ADD` and a refused `CFG` follow. -/
theorem witness_AnsweredYesStaysYes : 1 ≤ sample.m.toNat ∧
    (∀ i ∈ [Instr.add 0 [0x43], Instr.cfg 0 0 2], i.rebuilds sample.config = false) ∧
    ∃ t u, exec (.qry 0 ((List.range 17).map (BitVec.ofNat 8))) sample = .next t ∧
      t.rsp = [0x0300000000000000, 1] ∧ execAll [.add 0 [0x43], .cfg 0 0 2] t = .next u := by
  have hq : exec (.qry 0 ((List.range 17).map (BitVec.ofNat 8))) sample = .next (sample.respond 0x03 .ok 1) := by
    rw [exec_qry_ok rfl (by decide) (by decide), List.all_eq_true.2 sample_holds]; rfl
  obtain ⟨v, hv⟩ := exec_total (sample.respond 0x03 .ok 1) (i := .add 0 [0x43]) rfl
  obtain ⟨u, hu⟩ := exec_total v (i := .cfg 0 0 2) rfl
  exact ⟨by decide, by decide, _, u, hq, by decide, by rw [execAll_cons hv, execAll_cons hu]; rfl⟩

theorem witness_FirstFailingCheckGivesTheCode : 0x08 ≤ (0x0800000000000000 : Beat).toNat / 2 ^ 56 ∧ (Instr.bget 0 0 65).isCommand = true ∧
    (sample.cfgd = true → 1 ≤ sample.m.toNat) ∧ (State.reset.cfgd = true → 1 ≤ State.reset.m.toNat) := by decide

theorem witness_ErrorsHaveNoEffect : (Instr.rdw 0 0 2).isCommand = true ∧ sample.rsp = [] ∧ (5 : BitVec 8) ≠ 0 ∧
    ∃ t, exec (.rdw 0 0 2) sample = .next t ∧ t.rsp = [0x06#8 ++ 0x05#8 ++ 0#48, 0] :=
  ⟨rfl, rfl, by decide, _, execRdw_range rfl rfl rfl (by decide), by decide⟩

theorem witness_EveryStepKeepsTheInvariant : sample.Inv ∧ ∃ t, step (offered sample [0]) = .next t :=
  ⟨sample_inv, _, rfl⟩

theorem witness_CommandStreamsNeverStop : sample.Inv ∧ sample.fatal = false ∧ sample.bsReq = none :=
  ⟨sample_inv, rfl, rfl⟩

/-- An instruction that adds bits, and one that changes none. -/
theorem witness_BitsOnlyGrow : ((Instr.add 0 [0x43]).rebuilds sample.config = false ∧ ∃ t, exec (.add 0 [0x43]) sample = .next t) ∧
    ((Instr.nop 0 0).rebuilds sample.config = false ∧ ∃ t, exec (.nop 0 0) sample = .next t) :=
  ⟨⟨rfl, exec_total _ rfl⟩, rfl, exec_total _ rfl⟩

/-- Each clause's premise is met: a `CFG` that changes `M`, an error that changes `LASTERR`, a request that raises `FATAL`. -/
theorem witness_RegistersChangeOnlyAsStated :
    (∃ t, exec (.cfg 0 1 1) .reset = .next t ∧ t.m ≠ State.reset.m) ∧
    (∃ t, exec (.nop 0 1) .reset = .next t ∧ t.lasterr ≠ State.reset.lasterr) ∧
    (∃ t, exec (.bsGet 0) .reset = .next t ∧ t.fatal ≠ State.reset.fatal) :=
  ⟨⟨_, execCfg_ok rfl (by decide) (by decide) (by decide) (by decide), by decide⟩,
    ⟨_, execNop_illegal (by decide), by decide⟩, ⟨_, execBsGet_fatal (s := .reset) (pos := 0) (by decide), by decide⟩⟩

theorem witness_NoFalseNegatives : sample.cfgd = true ∧ 1 ≤ sample.m.toNat ∧
    [(0x43 : Byte)].length ≤ sample.config.keyMax.toNat ∧
    (∀ i ∈ [Instr.add 0 [0x42], Instr.nop 0 0], i.rebuilds sample.config = false) ∧
    ∃ t, execAll [.add 0 [0x43], .add 0 [0x42], .nop 0 0] sample = .next t := by
  refine ⟨rfl, by decide, by decide, by decide, ?_⟩
  obtain ⟨t, ht⟩ := exec_total sample (i := .add 0 [0x43]) rfl
  obtain ⟨u, hu⟩ := exec_total t (i := .add 0 [0x42]) rfl
  obtain ⟨v, hv⟩ := exec_total u (i := .nop 0 0) rfl
  exact ⟨v, by rw [execAll_cons ht, execAll_cons hu, execAll_cons hv]; rfl⟩

theorem witness_EmptyFilterAnswersNo : 1 ≤ (65 : BitVec 64).toNat ∧
    (65 : BitVec 64).toNat ≤ sample.config.mMax.toNat ∧ 1 ≤ (3 : BitVec 32).toNat ∧
    (3 : BitVec 32).toNat ≤ sample.config.kMax.toNat ∧ [(0x43 : Byte)].length ≤ sample.config.keyMax.toNat ∧
    (∀ i ∈ [Instr.qry 0 [0x42]], i.rebuilds sample.config = false ∧ (∀ rsv x, i ≠ .add rsv x) ∧ ∀ pos, i ≠ .bsSet pos) ∧
    ∃ t, execAll [.cfg 0 65 3, .qry 0 [0x42]] sample = .next t := by
  refine ⟨by decide, by decide, by decide, by decide, by decide, by simp [Instr.rebuilds], ?_⟩
  obtain ⟨t, ht⟩ := exec_total sample (i := .cfg 0 65 3) rfl
  obtain ⟨u, hu⟩ := exec_total t (i := .qry 0 [0x42]) rfl
  exact ⟨u, by rw [execAll_cons ht, execAll_cons hu]; rfl⟩

theorem witness_AddIsIdempotent :
    sample.cfgd = true ∧ 1 ≤ sample.m.toNat ∧ [(0x43 : Byte)].length ≤ sample.config.keyMax.toNat := by decide

theorem witness_AddsCommute : sample.cfgd = true ∧ 1 ≤ sample.m.toNat ∧
    [(0x43 : Byte)].length ≤ sample.config.keyMax.toNat ∧ [(0x42 : Byte)].length ≤ sample.config.keyMax.toNat := by
  decide

theorem witness_SingleBitFilterAnswersYes : (filter 1 1 [0]).cfgd = true ∧ (filter 1 1 [0]).m = 1 ∧
    (filter 1 1 [0]).k = 1 ∧ [(0x43 : Byte)].length ≤ (filter 1 1 [0]).config.keyMax.toNat := by decide

theorem witness_ObservationDoesNotDisturbQueries :
    (∀ i ∈ [Instr.rdw 0 0 0], i.rebuilds sample.config = false ∧ i.isCommand = true ∧ ∀ rsv x, i ≠ .add rsv x) ∧
    sample.cfgd = true ∧ 1 ≤ sample.m.toNat ∧ (∃ t, execAll [.rdw 0 0 0] sample = .next t) ∧
    ∃ u, exec (.qry 0 [0x43]) sample = .next u := by
  refine ⟨by simp [Instr.rebuilds, Instr.isCommand], rfl, by decide, ?_, exec_total _ rfl⟩
  obtain ⟨t, ht⟩ := exec_total sample (i := .rdw 0 0 0) rfl
  exact ⟨t, by rw [execAll_cons ht]; rfl⟩

theorem witness_BitStoreLaws : sample.cfgd = true ∧ (64 : Word).toNat < sample.m.toNat ∧
    (0 : Word).toNat < sample.m.toNat ∧ (0 : Word) ≠ 64 := by decide

theorem witness_SlackBitsReadZero : sample.Inv ∧ sample.cfgd = true ∧ sample.m.toNat % 64 ≠ 0 :=
  ⟨sample_inv, rfl, by decide⟩

/-- The sample, and the sample with another count of resets, so other free values in the words no filter uses. -/
theorem witness_UnusedWordsAreUnreadable : (Instr.rdw 0 0 1).isCommand = true ∧ sample.Inv ∧
    ({ sample with epoch := 1 } : State).Inv ∧ sample.agree { sample with epoch := 1 } ∧
    ∃ t, exec (.rdw 0 0 1) sample = .next t := by
  refine ⟨rfl, sample_inv, ⟨sample_inv.config, sample_inv.geometry, sample_inv.bits, ?_, sample_inv.lasterr,
    sample_inv.ports⟩, ⟨rfl, rfl, rfl, rfl, rfl, rfl, fun _ w h => ?_⟩, exec_total _ rfl⟩
  · intro hc
    refine ⟨(sample_inv.slack hc).1, ?_⟩
    have h : ∀ j, j < 63 → ({ sample with epoch := 1 } : State).bitAt (65 + j) = false := by decide
    intro pos h1 h2
    have h1 : 65 ≤ pos := h1
    have h2 : pos < 64 * 2 := h2
    have := h (pos - 65) (by omega)
    rwa [show 65 + (pos - 65) = pos by omega] at this
  · have h : w < 2 := h
    interval_cases w <;> rfl

theorem witness_FalsePositivesHappen : 8 ≤ State.reset.config.mMax.toNat ∧ 2 ≤ State.reset.config.kMax.toNat ∧
    1 ≤ State.reset.config.keyMax.toNat := by decide

theorem witness_CommandStreamRunsToItsEnd :
    (∀ i ∈ [Instr.cfg 0 8 1, Instr.qry 0 [0x61]], i.isCommand = true ∧ i.encodable = true) ∧ sample.Inv ∧
    sample.runEnded = true ∧ sample.rspReady = true :=
  ⟨by decide, sample_inv, rfl, rfl⟩

end Sys2Proof.Tests
end

section
/-! PROOFS of the family `00_scope.md`: the words of an instruction decode to it, whatever beats follow, so a step on those
words runs it. -/

namespace Sys2Proof

/-! ## Decoding what was encoded (R52 to R57, R65, R66) -/

/-- A header and as many beats as it announces are cut off the stream and read as one frame (R57). -/
theorem decodeBeats_frame_append {hdr : Beat} {body : List Beat} {i : Instr} (hlen : frameLen hdr = 1 + body.length)
    (hdec : decodeFrame hdr body = some i) (rest : List Beat) :
    decodeBeats (hdr :: body ++ rest) = .instr i rest := by
  have hn : frameLen hdr - 1 = body.length := by omega
  simp [decodeBeats, hn, hdec]

theorem keyBytes_lenField_packKey {key : List Byte} (h : keyFits key = true) :
    keyBytes (lenField key).toNat (packKey key) = key := by
  rw [lenField_toNat h]
  simpa using keyBytes_packKey key []

/-- Every constructor's statement of the family `PortWords`. -/
theorem portWords_statement : ∀ i : Instr, Laws.PortWords.Statement i
  | .nop rsv arg => Laws.PortWords.nop rsv arg
  | .cfg rsv m k => Laws.PortWords.cfg rsv m k
  | .add rsv key => Laws.PortWords.add rsv key
  | .qry rsv key => Laws.PortWords.qry rsv key
  | .hash rsv seed key => Laws.PortWords.hash rsv seed key
  | .bget rsv arg pos => Laws.PortWords.bget rsv arg pos
  | .rdw rsv arg idx => Laws.PortWords.rdw rsv arg idx
  | .stat rsv sel => Laws.PortWords.stat rsv sel
  | .bsGet pos => Laws.PortWords.bsGet pos
  | .bsSet pos => Laws.PortWords.bsSet pos
  | .bsRdw idx => Laws.PortWords.bsRdw idx
  | .bsClear n => Laws.PortWords.bsClear n
  | .hpHash seed key => Laws.PortWords.hpHash seed key
  | .hpProbe seed m key => Laws.PortWords.hpProbe seed m key

/-- The fields of a command's own frame spell the command (R52, R56). -/
theorem decodeFrame_encode {i : Instr} {hdr : Beat} {body : List Beat} (hi : i.encodable = true)
    (h : encode i = .cmd (hdr :: body)) : decodeFrame hdr body = some i := by
  cases i with
  | nop | cfg | bget | rdw | stat => cases h; simp [decodeFrame]
  | add _ key | qry _ key | hash _ _ key =>
    have hkey := keyBytes_lenField_packKey (key := key) hi
    cases h
    simp [decodeFrame, hkey]
  | bsGet | bsSet | bsRdw | bsClear | hpHash | hpProbe => cases h

/-- A command's frame decodes to the command and leaves the beats after it (R57, R62). -/
theorem decodeBeats_encode_append {i : Instr} {beats : List Beat} (hi : i.encodable = true) (h : encode i = .cmd beats)
    (rest : List Beat) : decodeBeats (beats ++ rest) = .instr i rest := by
  have hw := portWords_statement i hi
  rw [h] at hw
  cases beats with
  | nil => exact hw.elim
  | cons hdr body =>
    obtain ⟨-, -, hlen⟩ := hw
    exact decodeBeats_frame_append hlen (decodeFrame_encode hi h) rest

theorem decodeBs_encode {i : Instr} {r : BsReq} (hi : i.encodable = true) (h : encode i = .bs r) : decodeBs r = i := by
  have hw := portWords_statement i hi
  rw [h] at hw
  exact hw.2

theorem decodeHp_encode {i : Instr} {r : HpReq} (hi : i.encodable = true) (h : encode i = .hp r) : decodeHp r = i := by
  cases i with
  | hpHash _ key | hpProbe _ _ key =>
    have hkey := keyBytes_lenField_packKey (key := key) hi
    cases h
    simp [decodeHp, hkey]
  | nop | cfg | add | qry | hash | bget | rdw | stat | bsGet | bsSet | bsRdw | bsClear => cases h

/-- Decode undoes encode on every encodable instruction, on all three ports (R57, R65, R66). -/
theorem decode_encode {i : Instr} (hi : i.encodable = true) : decode (encode i) = .instr i [] := by
  cases h : encode i with
  | cmd beats => simpa [decode] using decodeBeats_encode_append hi h []
  | bs r => rw [decode, decodeBs_encode hi h]
  | hp r => rw [decode, decodeHp_encode hi h]

end Sys2Proof

namespace Sys2Proof.Machine

/-- A step on a request alone on its port runs what the request decodes to, and empties the port. -/
theorem step_withRequest {r : Request} {i : Instr} (s : State) (h : decode r = .instr i []) :
    step (s.withRequest r) = exec i (s.withRequest (.cmd [])) := by
  cases r with
  | cmd beats => exact step_command rfl rfl rfl rfl rfl h
  | bs q =>
    have hq : decodeBs q = i := by injection h
    rw [step_bs (r := q) rfl rfl rfl, hq]; rfl
  | hp q =>
    have hq : decodeHp q = i := by injection h
    rw [step_hp (r := q) rfl rfl rfl rfl, hq]; rfl

/-- Settles O30: the words of an encodable instruction decode to it, and a step runs what the port decodes to. -/
theorem stepRunsTheEncodedInstruction : Obligations.StepRunsTheEncodedInstruction :=
  fun _ s hi => step_withRequest s (decode_encode hi)

/-- Settles O29: the three cases of a step that executes, each by the law of the step's case. -/
theorem stepRunsTheDecodedInstruction : Obligations.StepRunsTheDecodedInstruction := by
  intro s hrst hfatal
  refine ⟨?command, ?bitstore, ?hashEngine⟩
  case command =>
    intro i rest hbs hhp hrsp hdec
    exact step_command hrst hfatal hbs hhp hrsp hdec
  case bitstore =>
    intro r hbs
    exact step_bs hrst hfatal hbs
  case hashEngine =>
    intro r hbs hhp
    exact step_hp hrst hfatal hbs hhp

end Sys2Proof.Machine
end

section
/-! PROOFS of the family `10_state.md`: the machine's invariant and what keeps it, what an instruction can change of `BITS`
and of the registers, and that no command reads a word beyond the filter. -/

namespace Sys2Proof.Machine

/-! ## The invariant, operation by operation (R6, R17 to R23, R25) -/

theorem ceilDiv_le_ceilDiv {a b : Nat} (h : a ≤ b) (n : Nat) : ceilDiv a n ≤ ceilDiv b n :=
  Nat.div_le_div_right (by omega)

/-- The words a filter uses exist (R21, R23). -/
theorem State.Inv.nwords_le {s : State} (h : s.Inv) : s.nwords ≤ s.config.nwMax := by
  apply ceilDiv_le_ceilDiv
  have hg := h.geometry
  unfold State.geometryOk at hg
  split at hg
  · exact hg.2.1
  · simp [hg.1]

theorem State.Inv.respond {s : State} (h : s.Inv) (hrx : s.rx = []) (o : BitVec 8) (c : Code) (v : Word) :
    (s.respond o c v).Inv :=
  ⟨h.config, h.geometry, h.bits, h.slack, lasterrAfter_le h.lasterr, h.ports.1, fun _ => hrx, le_rfl⟩

theorem State.Inv.setBsRsp {s : State} (h : s.Inv) (r : BsRsp) : (s.setBsRsp r).Inv :=
  ⟨h.config, h.geometry, h.bits, h.slack, h.lasterr, h.ports⟩

theorem State.Inv.setHpRsp {s : State} (h : s.Inv) (v : Word) : (s.setHpRsp v).Inv :=
  ⟨h.config, h.geometry, h.bits, h.slack, h.lasterr, h.ports⟩

theorem State.Inv.raiseFatal {s : State} (h : s.Inv) : s.raiseFatal.Inv :=
  ⟨h.config, h.geometry, h.bits, h.slack, h.lasterr, h.ports⟩

theorem State.Inv.takeBsReq {s : State} (h : s.Inv) : s.takeBsReq.Inv :=
  ⟨h.config, h.geometry, h.bits, h.slack, h.lasterr, h.ports⟩

theorem State.Inv.takeHpReq {s : State} (h : s.Inv) : s.takeHpReq.Inv :=
  ⟨h.config, h.geometry, h.bits, h.slack, h.lasterr, h.ports⟩

theorem State.Inv.takeFrame {s : State} (h : s.Inv) (rest : List Beat) : (s.takeFrame rest).Inv :=
  ⟨h.config, h.geometry, h.bits, h.slack, h.lasterr, rfl, fun _ => rfl, h.ports.2.2⟩

/-- Beats are taken into the parser only while the frame is not whole and no response waits (R152, R154). -/
theorem State.Inv.acceptBeats {s : State} (h : s.Inv) (hrsp : s.rsp = [])
    (hd : decodeBeats (s.rx ++ s.cmd) = .incomplete) : s.acceptBeats.Inv :=
  ⟨h.config, h.geometry, h.bits, h.slack, h.lasterr, hd, fun hne => absurd hrsp hne, h.ports.2.2⟩

theorem State.Inv.transferBeat {s : State} (h : s.Inv) : s.transferBeat.Inv := by
  unfold State.transferBeat
  split
  · obtain ⟨hrx, hidle, hlen⟩ := h.ports
    have htail : s.rsp.tail ≠ [] → s.rsp ≠ [] := fun hne hnil => hne (by simp [hnil])
    have hle : s.rsp.tail.length ≤ 2 := by simp; omega
    exact ⟨h.config, h.geometry, h.bits, h.slack, h.lasterr, hrx, fun hne => hidle (htail hne), hle⟩
  · exact h

/-- A state with no filter, no word written, no error and idle ports meets the invariant (R27). -/
theorem State.Inv.of_blank {s : State} (hconfig : s.config.wf) (hm : s.m = 0) (hk : s.k = 0) (hcfgd : s.cfgd = false)
    (hbits : s.bits = []) (hlasterr : s.lasterr = 0) (hrx : s.rx = []) (hrsp : s.rsp = []) : s.Inv where
  config := hconfig
  geometry := by simp [State.geometryOk, hcfgd, hm, hk]
  bits := by simp [State.bitsOk, hbits, Memory.wf, Memory.lookup]
  slack := by simp [State.slackOk, hcfgd]
  lasterr := by simp [State.lasterrOk, hlasterr]
  ports := by simp [State.portsOk, hrx, hrsp, decodeBeats]

theorem State.Inv.applyReset {s : State} (h : s.Inv) : s.applyReset.Inv :=
  .of_blank h.config rfl rfl rfl rfl rfl rfl rfl

/-- Another content of `BITS` keeps the invariant when it is canonical, lists no word beyond `NW_MAX`, keeps the words that
were written, and sets no slack bit. -/
theorem State.Inv.withBits {s : State} (h : s.Inv) {bits : Memory} (hwf : Memory.wf bits)
    (hnew : ∀ w, (Memory.lookup bits w).isSome = true → (Memory.lookup s.bits w).isSome = true ∨ w < s.config.nwMax)
    (hold : ∀ w, (Memory.lookup s.bits w).isSome = true → (Memory.lookup bits w).isSome = true)
    (hslack : ∀ pos, s.m.toNat ≤ pos → s.bitAt pos = false → ({ s with bits := bits } : State).bitAt pos = false) :
    ({ s with bits := bits } : State).Inv := by
  refine ⟨h.config, h.geometry, ⟨hwf, fun w v hw => ?_⟩, fun hc => ?_, h.lasterr, h.ports⟩
  · rcases hnew w (by simp [show Memory.lookup bits w = some v from hw]) with hs | hlt
    · obtain ⟨v', hv'⟩ := Option.isSome_iff_exists.1 hs
      exact h.bits.2 w v' hv'
    · exact hlt
  · obtain ⟨hwritten, hzero⟩ := h.slack hc
    exact ⟨fun w hw => hold w (hwritten w hw), fun pos hm hpos => hslack pos hm (hzero pos hm hpos)⟩

/-- `BS_SET` in range is the probe loop over one position. -/
theorem setAll_singleton {pos : Word} {s : State} (h : s.posInRange pos = true) :
    setAll [pos] s =
      .done (s.memWrite (wordIndex pos.toNat) (s.memRead (wordIndex pos.toNat) ||| bitMask pos.toNat)) := by
  rw [setAll, bsSet_of_inRange h]; rfl

/-- Setting positions below `M` keeps the invariant: the words are the filter's own, and no slack bit is among them
(R22, R38). -/
theorem State.Inv.of_setAll {s u : State} {ps : List Word} (h : s.Inv) (hps : ∀ p ∈ ps, p.toNat < s.m.toNat)
    (hu : setAll ps s = .done u) : u.Inv := by
  obtain ⟨bits, rfl, hwf, hbit, hnew, hold⟩ := setAll_done hu
  refine h.withBits (hwf h.bits.1) (fun w hw => (hnew w hw).imp_right (Nat.lt_of_lt_of_le · h.nwords_le)) hold
    fun pos hm hclear => ?_
  by_contra hset
  rcases (hbit pos).1 (by simpa using hset) with hs | ⟨p, hp, rfl⟩
  · simp [hs] at hclear
  · exact absurd (hps p hp) (Nat.not_lt.2 hm)

theorem State.Inv.memClear {s : State} (h : s.Inv) {n : Nat} (hn : n ≤ s.config.nwMax) : (s.memClear n).Inv := by
  refine h.withBits (Memory.wf_clear h.bits.1 n) (fun w => ?_) (fun w => ?_) fun pos _ hclear => ?_
  · rw [Memory.lookup_clear]
    split
    · exact fun _ => .inr (by omega)
    · exact .inl
  · rw [Memory.lookup_clear]
    split <;> simp
  · show (s.memClear n).bitAt pos = false
    simp [State.bitAt_memClear, hclear]

/-- A legal `CFG` establishes the geometry of R23 and leaves every word of the new filter written and 0 (R101). -/
theorem State.Inv.configured {s : State} (h : s.Inv) {m : BitVec 64} {k : BitVec 32} (hm : m ≠ 0) (hk : k ≠ 0)
    (hM : m.toNat ≤ s.config.mMax.toNat) (hK : k.toNat ≤ s.config.kMax.toNat) : (configured m k s).Inv := by
  have hn : wordCount m ≤ s.config.nwMax := ceilDiv_le_ceilDiv hM 64
  have hclear := h.memClear hn
  refine ⟨h.config, ⟨?_, hM, ?_, hK⟩, hclear.bits, fun _ => ⟨fun w hw => ?_, fun pos _ hpos => ?_⟩, h.lasterr, h.ports⟩
  · exact Nat.one_le_iff_ne_zero.2 (BitVec.toNat_ne.1 hm)
  · exact Nat.one_le_iff_ne_zero.2 (BitVec.toNat_ne.1 hk)
  · show (Memory.lookup (Memory.clear s.bits (wordCount m)) w).isSome = true
    rw [Memory.lookup_clear, if_pos (show w < wordCount m from hw)]
    rfl
  · show (s.memClear (wordCount m)).bitAt pos = false
    rw [State.bitAt_memClear, if_pos (show pos < 64 * wordCount m from hpos)]

/-! ## The invariant, instruction by instruction and step by step -/

/-- A command executed with the parser idle keeps the invariant. -/
theorem State.Inv.exec_command {i : Instr} {s t : State} (h : s.Inv) (hi : i.isCommand = true) (hrx : s.rx = [])
    (he : exec i s = .next t) : t.Inv := by
  rcases command_answers hi h.one_le_m he with ⟨o, c, v, rfl⟩ | ⟨m, k, -, hm, hk, hM, hK, rfl⟩ |
    ⟨key, u, -, hc, -, hu, rfl⟩
  · exact h.respond hrx o c v
  · exact (h.configured hm hk hM hK).respond hrx ..
  · have hu' := h.of_setAll (fun p hp => probes_lt (ne_zero_of_one_le (h.one_le_m hc)) hp) hu
    obtain ⟨bits, rfl, -⟩ := setAll_done hu
    exact hu'.respond hrx ..

/-- A micro-operation on its own port keeps the invariant. -/
theorem State.Inv.exec_micro {i : Instr} {s t : State} (h : s.Inv) (hi : i.isCommand = false)
    (he : exec i s = .next t) : t.Inv := by
  rcases exec_cases he with ⟨hcmd, -⟩ | ⟨m, k, rfl, -⟩ | ⟨key, u, rfl, -⟩ | ⟨key, u, rfl, -⟩ | ⟨key, rfl, -⟩ |
    ⟨r, -, rfl⟩ | ⟨-, rfl⟩ | ⟨pos, -, hpos, rfl⟩ | ⟨n, -, hn, rfl⟩ | ⟨v, -, rfl⟩
  · rw [hi] at hcmd; cases hcmd
  · cases hi
  · cases hi
  · cases hi
  · cases hi
  · exact h.setBsRsp r
  · exact (h.setBsRsp _).raiseFatal
  · have hlt := ((s.posInRange_iff pos).1 hpos).2
    exact (h.of_setAll (by simpa using hlt) (setAll_singleton hpos)).setBsRsp _
  · exact (h.memClear hn).setBsRsp _
  · exact h.setHpRsp v

/-- Settles O37: the cases of a step, each by what keeps the invariant there. -/
theorem everyStepKeepsTheInvariant : Obligations.EveryStepKeepsTheInvariant := by
  intro s t h hstep
  rcases step_cases hstep with ⟨-, rfl⟩ | ⟨-, -, ⟨r, -, he⟩ | ⟨-, r, -, he⟩ | ⟨-, -, -, rfl⟩ | ⟨-, -, hrsp, hcmd⟩⟩
  · exact h.applyReset
  · exact h.takeBsReq.exec_micro (decodeBs_isCommand r) he
  · exact h.takeHpReq.exec_micro (decodeHp_isCommand r) he
  · exact h.transferBeat
  · rcases hcmd with ⟨i, rest, hd, he⟩ | ⟨opc, rest, -, rfl⟩ | ⟨hd, rfl⟩
    · exact (h.takeFrame rest).exec_command (decodeBeats_isCommand hd) rfl he
    · exact (h.takeFrame rest).respond rfl ..
    · exact h.acceptBeats hrsp hd

/-! ## What an instruction can change of `BITS` (R24) -/

theorem rebuilds_cfg {c : Config} {m : BitVec 64} {k : BitVec 32} (hm : m ≠ 0) (hk : k ≠ 0)
    (hM : m.toNat ≤ c.mMax.toNat) (hK : k.toNat ≤ c.kMax.toNat) : (Instr.cfg 0 m k).rebuilds c = true := by
  simpa [Instr.rebuilds, hM, hK] using ⟨hm, hk⟩

/-- Settles O39: an answer leaves `BITS`, `ADD` and `BS_SET` only set bits in it, and what is left rebuilds. -/
theorem bitsOnlyGrow : Obligations.BitsOnlyGrow := by
  intro i s t hi h
  rcases exec_cases h with ⟨-, o, c, v, rfl⟩ | ⟨m, k, rfl, hm, hk, hM, hK, -⟩ | ⟨key, u, rfl, -, -, hu, rfl⟩ |
    ⟨key, u, rfl, -, hu, rfl⟩ | ⟨key, -, -, -, rfl⟩ | ⟨r, -, rfl⟩ | ⟨-, rfl⟩ | ⟨pos, rfl, -, rfl⟩ | ⟨n, rfl, -⟩ |
    ⟨v, -, rfl⟩
  · exact ⟨fun _ hq => hq, fun _ _ _ => rfl⟩
  · rw [rebuilds_cfg hm hk hM hK] at hi; cases hi
  · obtain ⟨bits, rfl, -, hbit, -⟩ := setAll_done hu
    exact ⟨fun q hq => (hbit q).2 (.inl hq), fun hadd => absurd rfl (hadd 0 key)⟩
  · obtain ⟨bits, rfl, hgrow⟩ := setAll_fatal hu
    exact ⟨hgrow, fun hadd => absurd rfl (hadd 0 key)⟩
  · exact ⟨fun _ hq => hq, fun _ _ _ => rfl⟩
  · exact ⟨fun _ hq => hq, fun _ _ _ => rfl⟩
  · exact ⟨fun _ hq => hq, fun _ _ _ => rfl⟩
  · refine ⟨fun q hq => ?_, fun _ hset => absurd rfl (hset pos)⟩
    rw [State.setBsRsp_bitAt, State.bitAt_setBit, hq, Bool.true_or]
  · cases hi
  · exact ⟨fun _ hq => hq, fun _ _ _ => rfl⟩

/-! ## What an instruction can change of the registers (R13, R15) -/

/-- What an instruction does to the control registers: it only answers, or it is a `CFG` that passes its checks, or it leaves
`M`, `K`, `CFGD` and `LASTERR` and at most raises `FATAL`, without a response. -/
theorem exec_control_cases {i : Instr} {s t : State} (h : exec i s = .next t) :
    OnlyAnswers s t ∨
    (∃ m k, i = .cfg 0 m k ∧ i.rebuilds s.config = true ∧ t = (configured m k s).respond 0x01 .ok 0) ∨
    (t.m = s.m ∧ t.k = s.k ∧ t.cfgd = s.cfgd ∧ t.lasterr = s.lasterr ∧
      (t.fatal = s.fatal ∨ t.fatal = true ∧ t.rsp = s.rsp)) := by
  rcases exec_cases h with ⟨-, hans⟩ | ⟨m, k, rfl, hm, hk, hM, hK, rfl⟩ | ⟨key, u, -, -, -, hu, rfl⟩ |
    ⟨key, u, -, -, hu, rfl⟩ | ⟨key, -, -, -, rfl⟩ | ⟨r, -, rfl⟩ | ⟨-, rfl⟩ | ⟨pos, -, -, rfl⟩ | ⟨n, -, -, rfl⟩ |
    ⟨v, -, rfl⟩
  · exact .inl hans
  · exact .inr (.inl ⟨m, k, rfl, rebuilds_cfg hm hk hM hK, rfl⟩)
  · obtain ⟨bits, rfl, -⟩ := setAll_done hu
    exact .inr (.inr ⟨rfl, rfl, rfl, rfl, .inl rfl⟩)
  · obtain ⟨bits, rfl, -⟩ := setAll_fatal hu
    exact .inr (.inr ⟨rfl, rfl, rfl, rfl, .inr ⟨rfl, rfl⟩⟩)
  · exact .inr (.inr ⟨rfl, rfl, rfl, rfl, .inr ⟨rfl, rfl⟩⟩)
  · exact .inr (.inr ⟨rfl, rfl, rfl, rfl, .inl rfl⟩)
  · exact .inr (.inr ⟨rfl, rfl, rfl, rfl, .inr ⟨rfl, rfl⟩⟩)
  all_goals exact .inr (.inr ⟨rfl, rfl, rfl, rfl, .inl rfl⟩)

/-- `M`, `K` and `CFGD` stay, but in a `CFG` that passes its checks and answers `OK` (R101). -/
theorem exec_geometry {i : Instr} {s t : State} (h : exec i s = .next t) :
    (t.m = s.m ∧ t.k = s.k ∧ t.cfgd = s.cfgd) ∨
      ((∃ m k, i = .cfg 0 m k) ∧ i.rebuilds s.config = true ∧ t.rsp = [0x01#8 ++ 0x00#8 ++ 0#48, 0]) := by
  rcases exec_control_cases h with ⟨o, c, v, rfl⟩ | ⟨m, k, hi, hrebuilds, rfl⟩ | ⟨hm, hk, hc, -⟩
  · exact .inl ⟨rfl, rfl, rfl⟩
  · exact .inr ⟨⟨m, k, hi⟩, hrebuilds, rfl⟩
  · exact .inl ⟨hm, hk, hc⟩

/-- An answer leaves `LASTERR` or puts its own code there, which is then no `OK` (R17, R128). -/
theorem State.respond_lasterr_cases (s : State) (o : BitVec 8) (c : Code) (v : Word) :
    (s.respond o c v).lasterr = s.lasterr ∨
      (s.respond o c v).rsp = [o ++ (s.respond o c v).lasterr ++ 0#48, 0] ∧ (s.respond o c v).lasterr ≠ 0 := by
  cases c with
  | ok => exact .inl rfl
  | illegal | cfg | cap | nocfg | range => exact .inr ⟨rfl, by simp [lasterrAfter, codeByte]⟩

/-- `LASTERR` changes only with an error response, which carries it (R17, R128). -/
theorem exec_lasterr {i : Instr} {s t : State} (h : exec i s = .next t) :
    t.lasterr = s.lasterr ∨ ∃ opc : BitVec 8, t.rsp = [opc ++ t.lasterr ++ 0#48, 0] ∧ t.lasterr ≠ 0 := by
  rcases exec_control_cases h with ⟨o, c, v, rfl⟩ | ⟨m, k, -, -, rfl⟩ | ⟨-, -, -, hlasterr, -⟩
  · exact (s.respond_lasterr_cases o c v).imp_right fun hc => ⟨o, hc⟩
  · exact .inl rfl
  · exact .inl hlasterr

/-- `FATAL` is only raised, and then without a response (R13, R126). -/
theorem exec_fatal {i : Instr} {s t : State} (h : exec i s = .next t) :
    t.fatal = s.fatal ∨ t.fatal = true ∧ t.rsp = s.rsp := by
  rcases exec_control_cases h with ⟨o, c, v, rfl⟩ | ⟨m, k, -, -, rfl⟩ | ⟨-, -, -, -, hfatal⟩
  · exact .inl rfl
  · exact .inl rfl
  · exact hfatal

theorem State.nwords_eq_of_m_eq {s t : State} (h : t.m = s.m) : t.nwords = s.nwords := by
  unfold State.nwords; rw [h]

/-- Settles O40: the geometry, `LASTERR` and `FATAL`, each by what an instruction can do to it; `NWORDS` is a function of
`M` (R20). -/
theorem registersChangeOnlyAsStated : Obligations.RegistersChangeOnlyAsStated := by
  intro i s t h
  have hconfig : t.config = s.config := by
    obtain ⟨-, -, -, -, -, hconfig, -⟩ := exec_ports h
    exact hconfig
  refine ⟨hconfig, ?unchanged, ?onlyOkCfg, fun hne => (exec_lasterr h).resolve_left hne,
    fun hne => (exec_fatal h).resolve_left hne⟩
  case unchanged =>
    intro hno
    rcases exec_geometry h with ⟨hm, hk, hc⟩ | ⟨⟨m, k, rfl⟩, hrebuilds, -⟩
    · exact ⟨hm, hk, hc, State.nwords_eq_of_m_eq hm⟩
    · rcases hno with hno | hno
      · exact absurd rfl (hno 0 m k)
      · rw [hrebuilds] at hno; cases hno
  case onlyOkCfg =>
    intro hne
    rcases exec_geometry h with ⟨hm, hk, hc⟩ | ⟨-, -, hrsp⟩
    · simp [hm, hk, hc, State.nwords_eq_of_m_eq hm] at hne
    · exact hrsp

/-! ## The slack bits and the reset state (R22, R27) -/

/-- Settles O51: `RDW` answers the last word, whose bits from `M mod 64` on are the slack bits of the invariant. -/
theorem slackBitsReadZero : Obligations.SlackBitsReadZero := by
  intro s h hc hslack
  have hlast : s.m.toNat / 64 < s.nwords := by unfold State.nwords wordCount ceilDiv; omega
  have hidx : (BitVec.ofNat 64 (s.m.toNat / 64)).toNat = s.m.toNat / 64 := by
    rw [BitVec.toNat_ofNat, Nat.mod_eq_of_lt (hlast.trans s.nwords_lt)]
  refine ⟨_, _, execRdw_ok rfl rfl hc (by rwa [hidx]), s.answered_ok .., ?_⟩
  rw [hidx]
  apply Nat.lt_pow_two_of_testBit
  intro i hi
  by_cases hi64 : i < 64
  · have hzero := (h.slack hc).2 (64 * (s.m.toNat / 64) + i) (by omega) (by omega)
    unfold State.bitAt at hzero
    rwa [show wordIndex (64 * (s.m.toNat / 64) + i) = s.m.toNat / 64 by unfold wordIndex; omega,
      show bitOffset (64 * (s.m.toNat / 64) + i) = i by unfold bitOffset; omega] at hzero
  · exact Nat.testBit_lt_two_pow ((s.memRead _).isLt.trans_le (Nat.pow_le_pow_right (by decide) (by omega)))

/-- Settles O1: every register of the reset state is written out in `State.reset`. -/
theorem resetLeavesNoFilter : Obligations.ResetLeavesNoFilter :=
  ⟨rfl, rfl, rfl, rfl, rfl, rfl, rfl, rfl, rfl, rfl, fun _ => rfl, rfl, rfl, rfl⟩

/-- Settles O36: the reset state is blank, on the parameters of the reference configuration. -/
theorem resetMeetsTheInvariant : Obligations.ResetMeetsTheInvariant :=
  .of_blank (by decide) rfl rfl rfl rfl rfl rfl rfl

/-! ## Two states that agree on what a command may read (R21, R38) -/

theorem configured_memRead {m : BitVec 64} {w : Nat} (hw : w < wordCount m) (k : BitVec 32) (s : State) :
    (configured m k s).memRead w = 0 := by
  rw [configured, State.setCfgd_memRead, State.memRead_memClear, if_pos hw]

section Agree

variable {s t : State}

theorem State.agree.m_eq (h : s.agree t) : t.m = s.m :=
  let ⟨hm, _⟩ := h; hm

theorem State.agree.k_eq (h : s.agree t) : t.k = s.k :=
  let ⟨_, hk, _⟩ := h; hk

theorem State.agree.cfgd_eq (h : s.agree t) : t.cfgd = s.cfgd :=
  let ⟨_, _, hcfgd, _⟩ := h; hcfgd

theorem State.agree.lasterr_eq (h : s.agree t) : t.lasterr = s.lasterr :=
  let ⟨_, _, _, _, hlasterr, _⟩ := h; hlasterr

theorem State.agree.config_eq (h : s.agree t) : t.config = s.config :=
  let ⟨_, _, _, _, _, hconfig, _⟩ := h; hconfig

theorem State.agree.memRead_eq (h : s.agree t) {w : Nat} (hc : s.cfgd = true) (hw : w < s.nwords) :
    t.memRead w = s.memRead w :=
  let ⟨_, _, _, _, _, _, hread⟩ := h; hread hc w hw

theorem State.agree.nwords_eq (h : s.agree t) : t.nwords = s.nwords := State.nwords_eq_of_m_eq h.m_eq

theorem State.agree.posInRange_eq (h : s.agree t) (p : Word) : t.posInRange p = s.posInRange p := by
  rw [State.posInRange, State.posInRange, h.cfgd_eq, h.m_eq]

theorem State.agree.idxInRange_eq (h : s.agree t) (idx : Word) : t.idxInRange idx = s.idxInRange idx := by
  rw [State.idxInRange, State.idxInRange, h.cfgd_eq, h.nwords_eq]

/-- The word of a position in range is one the filter uses (R33). -/
theorem State.agree.memRead_wordIndex (h : s.agree t) {p : Word} (hp : s.posInRange p = true) :
    t.memRead (wordIndex p.toNat) = s.memRead (wordIndex p.toNat) := by
  obtain ⟨hc, hlt⟩ := (s.posInRange_iff p).1 hp
  exact h.memRead_eq hc (by unfold wordIndex State.nwords wordCount ceilDiv; omega)

/-! ### Writes that keep the agreement -/

theorem State.agree.respond (h : s.agree t) (o : BitVec 8) (c : Code) (v : Word) :
    (s.respond o c v).agree (t.respond o c v) := by
  obtain ⟨hm, hk, hcfgd, hfatal, hlasterr, hconfig, hread⟩ := h
  exact ⟨hm, hk, hcfgd, hfatal, congrArg (lasterrAfter c) hlasterr, hconfig, hread⟩

theorem State.agree.memWrite (h : s.agree t) (w : Nat) (v : Word) : (s.memWrite w v).agree (t.memWrite w v) := by
  obtain ⟨hm, hk, hcfgd, hfatal, hlasterr, hconfig, hread⟩ := h
  refine ⟨hm, hk, hcfgd, hfatal, hlasterr, hconfig, fun hc w' hw' => ?_⟩
  rw [State.memRead_memWrite, State.memRead_memWrite, hread hc w' hw']

/-- A legal `CFG` clears every word of the new filter, so the states agree on it whatever the words held before (R101). -/
theorem State.agree.configured (h : s.agree t) (m : BitVec 64) (k : BitVec 32) :
    (configured m k s).agree (configured m k t) := by
  obtain ⟨-, -, -, hfatal, hlasterr, hconfig, -⟩ := h
  refine ⟨rfl, rfl, rfl, hfatal, hlasterr, hconfig, fun _ w hw => ?_⟩
  have hw : w < wordCount m := hw
  rw [configured_memRead hw, configured_memRead hw]

/-! ### The micro-operations and loops a command calls -/

theorem State.agree.bsGet_eq (h : s.agree t) (p : Word) : bsGet p t = bsGet p s := by
  cases hp : s.posInRange p with
  | true => rw [bsGet_of_inRange hp, bsGet_of_inRange (h.posInRange_eq p ▸ hp), State.bitAt, State.bitAt,
      h.memRead_wordIndex hp]
  | false => rw [bsGet_eq_none.2 hp, bsGet_eq_none.2 (h.posInRange_eq p ▸ hp)]

theorem State.agree.bsRdw_eq (h : s.agree t) (idx : Word) : bsRdw idx t = bsRdw idx s := by
  cases hi : s.idxInRange idx with
  | true =>
    obtain ⟨hc, hlt⟩ := (s.idxInRange_iff idx).1 hi
    rw [bsRdw_of_inRange hi, bsRdw_of_inRange (h.idxInRange_eq idx ▸ hi), h.memRead_eq hc hlt]
  | false => rw [bsRdw_eq_none.2 hi, bsRdw_eq_none.2 (h.idxInRange_eq idx ▸ hi)]

theorem State.agree.getAll_eq (h : s.agree t) (ps : List Word) : getAll ps t = getAll ps s := by
  induction ps with
  | nil => rfl
  | cons p ps ih => rw [getAll, getAll, h.bsGet_eq, ih]

theorem State.agree.statRead_eq (h : s.agree t) (sel : BitVec 32) : statRead sel t = statRead sel s := by
  rw [statRead, statRead, h.m_eq, h.k_eq, h.cfgd_eq, h.lasterr_eq, h.config_eq, h.nwords_eq]

/-- The probe loop of `ADD` reads and writes words of the filter only, so it does the same to both states. -/
theorem State.agree.setAll_done {u : State} {ps : List Word} (h : s.agree t) (hu : setAll ps s = .done u) :
    ∃ u', setAll ps t = .done u' ∧ u.agree u' := by
  induction ps generalizing s t with
  | nil =>
    obtain rfl : s = u := by injection hu
    exact ⟨t, rfl, h⟩
  | cons p ps ih =>
    unfold setAll at hu
    split at hu
    · rename_i s₁ hs
      obtain ⟨hp, rfl⟩ := bsSet_eq_some hs
      rw [setAll, bsSet_of_inRange (h.posInRange_eq p ▸ hp), h.memRead_wordIndex hp]
      exact ih (h.memWrite _ _) hu
    · cases hu

/-! ### Commands on two such states -/

/-- Two outcomes that a host cannot tell apart: next states with the same response that agree on what a command may read. -/
def AnswerAlike (e e' : Host.Outcome State Fault Refusal) : Prop :=
  ∃ s' t', e = .next s' ∧ e' = .next t' ∧ t'.rsp = s'.rsp ∧ s'.agree t'

theorem State.agree.respondAlike (h : s.agree t) (o : BitVec 8) (c : Code) (v : Word) :
    AnswerAlike (.next (s.respond o c v)) (.next (t.respond o c v)) :=
  ⟨_, _, rfl, rfl, rfl, h.respond o c v⟩

/-- A check of R127 that both states fail is answered with the same error by both; what remains is the command past it. -/
theorem State.agree.pastCheck (h : s.agree t) {p : Prop} [Decidable p] {o : BitVec 8} {c : Code}
    {e e' : Host.Outcome State Fault Refusal} (hpast : ¬ p → AnswerAlike e e') :
    AnswerAlike (if p then .next (s.error o c) else e) (if p then .next (t.error o c) else e') := by
  split
  · exact h.respondAlike o c 0
  · exact hpast ‹_›

theorem execNop_alike (h : s.agree t) (rsv : BitVec 24) (arg : BitVec 32) :
    AnswerAlike (execNop rsv arg s) (execNop rsv arg t) :=
  h.pastCheck fun _ => h.respondAlike ..

theorem execCfg_alike (h : s.agree t) (rsv : BitVec 24) (m : BitVec 64) (k : BitVec 32) :
    AnswerAlike (execCfg rsv m k s) (execCfg rsv m k t) := by
  rw [execCfg, execCfg, h.config_eq]
  exact h.pastCheck fun _ => h.pastCheck fun _ => h.pastCheck fun _ => (h.configured m k).respondAlike ..

theorem execHash_alike (h : s.agree t) (rsv : BitVec 24) (seed : BitVec 64) (key : List Byte) :
    AnswerAlike (execHash rsv seed key s) (execHash rsv seed key t) := by
  rw [execHash, execHash, h.config_eq]
  exact h.pastCheck fun _ => h.pastCheck fun _ => h.respondAlike ..

theorem execStat_alike (h : s.agree t) (rsv : BitVec 24) (sel : BitVec 32) :
    AnswerAlike (execStat rsv sel s) (execStat rsv sel t) := by
  rw [execStat, execStat, h.statRead_eq]
  refine h.pastCheck fun _ => ?_
  split <;> exact h.respondAlike ..

theorem execBget_alike (h : s.agree t) (rsv : BitVec 24) (arg : BitVec 32) (pos : BitVec 64) :
    AnswerAlike (execBget rsv arg pos s) (execBget rsv arg pos t) := by
  rw [execBget, execBget, h.m_eq, h.cfgd_eq, h.bsGet_eq]
  refine h.pastCheck fun _ => h.pastCheck fun hcfgd => h.pastCheck fun hrange => ?_
  have hpos : s.posInRange pos = true :=
    (s.posInRange_iff pos).2 ⟨by simpa using hcfgd, by simpa [BitVec.le_def] using hrange⟩
  rw [bsGet_of_inRange hpos]
  exact h.respondAlike ..

theorem execRdw_alike (h : s.agree t) (rsv : BitVec 24) (arg : BitVec 32) (idx : BitVec 64) :
    AnswerAlike (execRdw rsv arg idx s) (execRdw rsv arg idx t) := by
  rw [execRdw, execRdw, h.cfgd_eq, h.nwords_eq, h.bsRdw_eq]
  refine h.pastCheck fun _ => h.pastCheck fun hcfgd => h.pastCheck fun hrange => ?_
  rw [bsRdw_of_inRange ((s.idxInRange_iff idx).2 ⟨by simpa using hcfgd, by omega⟩)]
  exact h.respondAlike ..

section Filter

variable (hone : s.cfgd = true → 1 ≤ s.m.toNat)

include hone

theorem execAdd_alike (h : s.agree t) (rsv : BitVec 24) (key : List Byte) :
    AnswerAlike (execAdd rsv key s) (execAdd rsv key t) := by
  rw [execAdd, execAdd, h.m_eq, h.k_eq, h.cfgd_eq, h.config_eq]
  refine h.pastCheck fun _ => h.pastCheck fun hcfgd => h.pastCheck fun _ => ?_
  have hc : s.cfgd = true := by simpa using hcfgd
  obtain ⟨u, hu⟩ := setAll_completes (ps := probes key s.m s.k) hc
    fun p hp => probes_lt (ne_zero_of_one_le (hone hc)) hp
  obtain ⟨u', hu', hagree⟩ := h.setAll_done hu
  rw [hu, hu']
  exact hagree.respondAlike ..

theorem execQry_alike (h : s.agree t) (rsv : BitVec 24) (key : List Byte) :
    AnswerAlike (execQry rsv key s) (execQry rsv key t) := by
  rw [execQry, execQry, h.m_eq, h.k_eq, h.cfgd_eq, h.config_eq, h.getAll_eq]
  refine h.pastCheck fun _ => h.pastCheck fun hcfgd => h.pastCheck fun _ => ?_
  have hc : s.cfgd = true := by simpa using hcfgd
  rw [getAll_eq hc fun p hp => probes_lt (ne_zero_of_one_le (hone hc)) hp]
  exact h.respondAlike ..

/-- With a filter of at least one bit, every command answers alike on two states that agree. -/
theorem exec_alike (h : s.agree t) : ∀ {i : Instr}, i.isCommand = true → AnswerAlike (exec i s) (exec i t)
  | .nop rsv arg, _ => execNop_alike h rsv arg
  | .cfg rsv m k, _ => execCfg_alike h rsv m k
  | .add rsv key, _ => execAdd_alike hone h rsv key
  | .qry rsv key, _ => execQry_alike hone h rsv key
  | .hash rsv seed key, _ => execHash_alike h rsv seed key
  | .bget rsv arg pos, _ => execBget_alike h rsv arg pos
  | .rdw rsv arg idx, _ => execRdw_alike h rsv arg idx
  | .stat rsv sel, _ => execStat_alike h rsv sel

end Filter

end Agree

/-- Settles O52: agreement is kept by every command, and the invariant gives the filter's one bit that keeps `ADD` and `QRY`
from the fatal fault. -/
theorem unusedWordsAreUnreadable : Obligations.UnusedWordsAreUnreadable := by
  intro i s t s' hi hs _ hagree he
  obtain ⟨s₁, t', he₁, he', hrsp, hagree'⟩ := exec_alike hs.one_le_m hagree hi
  obtain rfl : s₁ = s' := by rw [he₁] at he; injection he
  exact ⟨t', he', hrsp, hagree'⟩

end Sys2Proof.Machine
end

section
/-! PROOFS of the family `30_encoding.md`: frames by opcode and length, the fronts of a beat stream, the key's lanes, and that
encoding undoes decoding but for the lanes a key does not use. -/

namespace Sys2Proof

/-! ## Opcodes and frame lengths (R57, R58) -/

/-- The unassigned opcodes are `0x08 .. 0xFF` (R59). -/
theorem Opcode.ofByte_eq_none_iff {b : BitVec 8} : Opcode.ofByte b = none ↔ 8 ≤ b.toNat := by
  revert b; decide

theorem ofByte_opcOf_eq_none_iff {hdr : Beat} : Opcode.ofByte (opcOf hdr) = none ↔ 8 ≤ hdr.toNat / 2 ^ 56 := by
  rw [Opcode.ofByte_eq_none_iff, opcOf_toNat]

theorem ofByte_opcOf {hdr : Beat} (o : Opcode) (h : hdr.toNat / 2 ^ 56 = o.byte.toNat) :
    Opcode.ofByte (opcOf hdr) = some o := by
  have hb : opcOf hdr = o.byte := BitVec.eq_of_toNat_eq (by rw [opcOf_toNat, h])
  rw [hb, Opcode.ofByte_byte]

theorem frameLen_of_opcode {hdr : Beat} (o : Opcode) (h : hdr.toNat / 2 ^ 56 = o.byte.toNat) :
    frameLen hdr = o.format.beats (argOf hdr) :=
  frameLen_of_ofByte (ofByte_opcOf o h)

theorem frameLen_of_unassigned {hdr : Beat} (h : 8 ≤ hdr.toNat / 2 ^ 56) : frameLen hdr = 1 := by
  rw [frameLen, ofByte_opcOf_eq_none_iff.2 h]

/-- The bound is met by a `HASH` of `2^32 − 1` key bytes (R57). -/
theorem frameLen_le (hdr : Beat) : frameLen hdr ≤ 2 + 2 ^ 29 := by
  have harg := (argOf hdr).isLt
  cases ho : Opcode.ofByte (opcOf hdr) with
  | none => rw [frameLen_of_unassigned (ofByte_opcOf_eq_none_iff.1 ho)]; omega
  | some o =>
    rw [frameLen_of_ofByte ho]
    cases o <;> simp only [Opcode.format, Format.beats, ceilDiv] <;> omega

/-! ## The three fronts of a beat stream (R57, R59, R152) -/

theorem decodeBeats_of_short {hdr : Beat} {tail : List Beat} (h : tail.length + 1 < frameLen hdr) :
    decodeBeats (hdr :: tail) = .incomplete :=
  if_pos (by omega)

theorem decodeFrame_of_unassigned {hdr : Beat} (h : 8 ≤ hdr.toNat / 2 ^ 56) (body : List Beat) :
    decodeFrame hdr body = none := by
  rw [decodeFrame, ofByte_opcOf_eq_none_iff.2 h]

theorem decodeBeats_of_unassigned {hdr : Beat} (h : 8 ≤ hdr.toNat / 2 ^ 56) (tail : List Beat) :
    decodeBeats (hdr :: tail) = .unassigned (opcOf hdr) tail := by
  simp [decodeBeats, frameLen_of_unassigned h, decodeFrame_of_unassigned h]

/-- After an assigned opcode, any beats spell a command (R56, R58). -/
theorem exists_decodeFrame {hdr : Beat} (h : hdr.toNat / 2 ^ 56 < 8) (body : List Beat) :
    ∃ i, decodeFrame hdr body = some i := by
  cases ho : Opcode.ofByte (opcOf hdr) with
  | none => exact absurd (ofByte_opcOf_eq_none_iff.1 ho) (by omega)
  | some o => cases o <;> simp [decodeFrame, ho]

/-- What reads as a command is exactly the frame its header announces and the beats after it. -/
theorem decodeBeats_eq_instr_iff {hdr : Beat} {tail rest : List Beat} {i : Instr} :
    decodeBeats (hdr :: tail) = .instr i rest ↔
      ∃ body, tail = body ++ rest ∧ frameLen hdr = 1 + body.length ∧ decodeFrame hdr body = some i := by
  constructor
  · intro h
    have hpos := frameLen_pos hdr
    simp only [decodeBeats] at h
    split at h
    · cases h
    · split at h
      · next hlen _ hdec =>
        cases h
        exact ⟨_, (List.take_append_drop ..).symm, by rw [List.length_take]; omega, hdec⟩
      · cases h
  · rintro ⟨body, rfl, hlen, hdec⟩
    exact decodeBeats_frame_append hlen hdec rest

/-- A stream that holds its first frame is cut behind it, whatever the frame's beats contain (R57, R62). -/
theorem decodeBeats_of_whole {hdr : Beat} {tail : List Beat} (hlen : frameLen hdr ≤ tail.length + 1)
    (h : hdr.toNat / 2 ^ 56 < 8) : ∃ i, decodeBeats (hdr :: tail) = .instr i (tail.drop (frameLen hdr - 1)) := by
  have hpos := frameLen_pos hdr
  obtain ⟨i, hdec⟩ := exists_decodeFrame h (tail.take (frameLen hdr - 1))
  refine ⟨i, decodeBeats_eq_instr_iff.2 ⟨_, (List.take_append_drop ..).symm, ?_, hdec⟩⟩
  rw [List.length_take]
  omega

/-! ## The key's lanes (R31, R55) -/

/-- A beat with lanes `r` and above cleared. -/
def lowLanes (r : Nat) (b : Beat) : Beat := b &&& BitVec.ofNat 64 (2 ^ (8 * r) - 1)

theorem lowLanes_toNat {r : Nat} (hr : r ≤ 8) (b : Beat) : (lowLanes r b).toNat = b.toNat % 256 ^ r := by
  have hpow : 2 ^ (8 * r) ≤ 2 ^ 64 := Nat.pow_le_pow_right (by decide) (by omega)
  have hpos : 0 < 2 ^ (8 * r) := Nat.two_pow_pos _
  rw [lowLanes, BitVec.toNat_and, BitVec.toNat_ofNat, Nat.mod_eq_of_lt (by omega), Nat.and_two_pow_sub_one_eq_mod,
    pow_mul]
  rfl

theorem lowLanes_eight (b : Beat) : lowLanes 8 b = b :=
  BitVec.eq_of_toNat_eq (by rw [lowLanes_toNat le_rfl]; exact Nat.mod_eq_of_lt b.isLt)

theorem leNat_concat (bs : List Byte) (b : Byte) : leNat (bs ++ [b]) = leNat bs + 256 ^ bs.length * b.toNat := by
  induction bs with
  | nil => simp [leNat]
  | cons c cs ih => simp only [List.cons_append, leNat, ih, List.length_cons, pow_succ]; ring

/-- The lanes of a beat are its digits in base 256, the lowest first (R31). -/
theorem leNat_lanes (b : Beat) (r : Nat) : leNat ((List.range r).map (laneOf b)) = b.toNat % 256 ^ r := by
  induction r with
  | zero => simp [leNat, Nat.mod_one]
  | succ r ih =>
    rw [List.range_succ, List.map_append, List.map_singleton, leNat_concat, ih, laneOf_toNat, Nat.mod_pow_succ]
    simp

theorem leWord_lanes (b : Beat) {r : Nat} (hr : r ≤ 8) : leWord ((List.range r).map (laneOf b)) = lowLanes r b := by
  apply BitVec.eq_of_toNat_eq
  rw [leWord_toNat _ (by simpa using hr), leNat_lanes, lowLanes_toNat hr]

theorem keyBytes_getElem {len : Nat} {beats : List Beat} {j : Nat} (hj : j < (keyBytes len beats).length)
    (hq : j / 8 < beats.length) : (keyBytes len beats)[j] = laneOf beats[j / 8] (j % 8) := by
  simp [keyBytes, hq]

/-- Slice `q` of a key is the lanes of beat `q` that the key uses. -/
theorem keySlice_keyBytes {len : Nat} {beats : List Beat} {q : Nat} (hq : q < beats.length) :
    keySlice (keyBytes len beats) q = (List.range (min 8 (len - 8 * q))).map (laneOf beats[q]) := by
  apply List.ext_getElem
  · simp [keySlice_length]
  · intro j hj _
    have hj8 : j < 8 := by rw [keySlice_length] at hj; omega
    have hdiv : (8 * q + j) / 8 = q := by omega
    have hmod : (8 * q + j) % 8 = j := by omega
    simp only [keySlice, List.getElem_take, List.getElem_drop, List.getElem_map, List.getElem_range]
    rw [keyBytes_getElem _ (by omega)]
    simp only [hdiv, hmod]

theorem leWord_keySlice_keyBytes {len : Nat} {beats : List Beat} {q : Nat} (hq : q < beats.length) :
    leWord (keySlice (keyBytes len beats) q) = lowLanes (min 8 (len - 8 * q)) beats[q] := by
  rw [keySlice_keyBytes hq, leWord_lanes _ (Nat.min_le_left ..)]

/-! ## Encoding what was decoded (R52 to R57) -/

/-- The beats of a payload, in the last one the lanes above the key's end cleared (R55). -/
def clearUnusedLanes (len : Nat) (body : List Beat) : List Beat :=
  body.mapIdx fun j b => if j + 1 = body.length ∧ len % 8 ≠ 0 then lowLanes (len % 8) b else b

@[simp] theorem clearUnusedLanes_length (len : Nat) (body : List Beat) :
    (clearUnusedLanes len body).length = body.length := List.length_mapIdx

/-- A beat in front of the payload is never the last one with unused lanes: if no payload beat follows it, the key is
empty. -/
theorem clearUnusedLanes_cons {len : Nat} {beats : List Beat} (h : beats.length = ceilDiv len 8) (b : Beat) :
    clearUnusedLanes len (b :: beats) = b :: clearUnusedLanes len beats := by
  have hseed : ¬ (0 = beats.length ∧ len % 8 ≠ 0) := by
    unfold ceilDiv at h
    omega
  simp only [clearUnusedLanes, List.mapIdx_cons, List.length_cons, Nat.add_right_cancel_iff, if_neg hseed]

/-- Packing a key read from beats gives the beats back, but for the lanes past its end. -/
theorem packKey_keyBytes {len : Nat} {beats : List Beat} (h : beats.length = ceilDiv len 8) :
    packKey (keyBytes len beats) = clearUnusedLanes len beats := by
  apply List.ext_getElem
  · simp [h]
  · intro q hq _
    have hq' : q < beats.length := by simpa [h] using hq
    simp only [packKey, clearUnusedLanes, List.getElem_map, List.getElem_range, List.getElem_mapIdx]
    rw [leWord_keySlice_keyBytes hq']
    unfold ceilDiv at h
    split
    · next hlast => rw [show min 8 (len - 8 * q) = len % 8 by omega]
    · next hwhole => rw [show min 8 (len - 8 * q) = 8 by omega, lowLanes_eight]

@[simp] theorem lenField_keyBytes (arg : BitVec 32) (beats : List Beat) :
    lenField (keyBytes arg.toNat beats) = arg := by
  simp [lenField]

theorem keyFits_keyBytes (arg : BitVec 32) (beats : List Beat) : keyFits (keyBytes arg.toNat beats) = true := by
  simpa [keyFits] using arg.isLt

/-- The frame a command was read from is its encoding, but for the lanes past the key's end. -/
theorem encode_decodeFrame {hdr : Beat} {body : List Beat} {i : Instr} (hlen : frameLen hdr = 1 + body.length)
    (hdec : decodeFrame hdr body = some i) :
    i.encodable = true ∧
      encode i = .cmd (hdr :: if i.hasKey then clearUnusedLanes (argOf hdr).toNat body else body) := by
  cases ho : Opcode.ofByte (opcOf hdr) with
  | none => simp [decodeFrame, ho] at hdec
  | some o =>
    rw [frameLen_of_ofByte ho] at hlen
    have hhdr := header_of_ofByte ho
    simp only [decodeFrame, ho] at hdec
    cases o with
    | nop | stat =>
      change 1 = 1 + body.length at hlen
      obtain rfl : body = [] := List.length_eq_zero_iff.1 (by omega)
      cases hdec
      exact ⟨rfl, by simp [encode, hhdr, Instr.hasKey]⟩
    | cfg | bget | rdw =>
      change 2 = 1 + body.length at hlen
      obtain ⟨x, rfl⟩ : ∃ x, body = [x] := List.length_eq_one_iff.1 (by omega)
      cases hdec
      exact ⟨rfl, by simp [encode, hhdr, Instr.hasKey]⟩
    | add | qry =>
      change 1 + ceilDiv (argOf hdr).toNat 8 = 1 + body.length at hlen
      have hbody : body.length = ceilDiv (argOf hdr).toNat 8 := by omega
      cases hdec
      exact ⟨keyFits_keyBytes .., by simp [encode, hhdr, Instr.hasKey, packKey_keyBytes hbody]⟩
    | hash =>
      change 2 + ceilDiv (argOf hdr).toNat 8 = 1 + body.length at hlen
      obtain ⟨seed, beats, rfl⟩ := List.exists_cons_of_length_pos (l := body) (by omega)
      have hbeats : beats.length = ceilDiv (argOf hdr).toNat 8 := by rw [List.length_cons] at hlen; omega
      cases hdec
      exact ⟨keyFits_keyBytes .., by
        simp [encode, hhdr, Instr.hasKey, packKey_keyBytes hbeats, clearUnusedLanes_cons hbeats]⟩

end Sys2Proof

namespace Sys2Proof.Machine

theorem tailWord_eq_leWord_keySlice (key : List Byte) : tailWord key = leWord (keySlice key (key.length / 8)) := by
  rw [tailWord, keySlice, List.take_of_length_le (by rw [List.length_drop]; omega)]

theorem State.takeFrame_of_idle {s : State} (h : s.rx = []) (rest : List Beat) :
    s.takeFrame rest = { s with cmd := rest } := by
  rw [State.takeFrame, ← h]

/-! ## The statements -/

/-- Settles O25: decoding undoes encoding on each of the three ports. -/
theorem decodeOfEncodeIsIdentity : Obligations.DecodeOfEncodeIsIdentity :=
  fun _ hi => decode_encode hi

/-- Settles O22: a slice of the key is the used lanes of its beat, all eight of them or, in the tail, `LEN mod 8`. -/
theorem payloadBeatsAreChunks : Obligations.PayloadBeatsAreChunks := by
  intro len beats hbeats
  refine ⟨keyBytes_length .., ?lane, ?chunk, ?tail⟩
  case lane =>
    intro j hj
    have hq : j / 8 < beats.length := by omega
    rw [List.getElem?_eq_getElem (by simpa using hj), List.getElem?_eq_getElem hq, keyBytes_getElem _ hq]
    rfl
  case chunk =>
    intro q hq
    have hwhole : min 8 (len - 8 * q) = 8 := by omega
    rw [chunkAt, leWord_keySlice_keyBytes (by omega), hwhole, lowLanes_eight, List.getElem?_eq_getElem]
  case tail =>
    intro hr
    have hused : min 8 (len - 8 * (len / 8)) = len % 8 := by omega
    have hq : len / 8 < beats.length := by omega
    rw [tailWord_eq_leWord_keySlice, keyBytes_length, leWord_keySlice_keyBytes hq, hused, List.getElem?_eq_getElem hq]
    rfl

/-- Settles O24: the length by the opcode's format, and the cut by whether the opcode is assigned. -/
theorem frameLengthByOpcodeAndArg : Obligations.FrameLengthByOpcodeAndArg := by
  intro hdr tail
  refine ⟨decodeBeats_of_short, ?taken, frameLen_pos hdr, frameLen_le hdr, ?f0, ?f1, ?fp, ?f1p, frameLen_of_unassigned⟩
  case taken =>
    intro hle
    have hpos := frameLen_pos hdr
    by_cases h8 : 8 ≤ hdr.toNat / 2 ^ 56
    · exact ⟨tail, by rw [frameLen_of_unassigned h8], .inr ⟨h8, decodeBeats_of_unassigned h8 tail, rfl⟩⟩
    · obtain ⟨i, hdec⟩ := decodeBeats_of_whole hle (Nat.lt_of_not_le h8)
      exact ⟨_, by rw [List.length_drop]; omega, .inl ⟨i, hdec, _, (List.take_append_drop ..).symm⟩⟩
  case f0 =>
    rintro (h | h)
    · exact frameLen_of_opcode .nop h
    · exact frameLen_of_opcode .stat h
  case f1 =>
    rintro (h | h | h)
    · exact frameLen_of_opcode .cfg h
    · exact frameLen_of_opcode .bget h
    · exact frameLen_of_opcode .rdw h
  case fp =>
    rw [← argOf_toNat]
    rintro (h | h)
    · exact frameLen_of_opcode .add h
    · exact frameLen_of_opcode .qry h
  case f1p =>
    rw [← argOf_toNat]
    exact frameLen_of_opcode .hash

/-- Settles O26: a command's frame is cut off and read whatever follows it. -/
theorem framesAreSelfDelimiting : Obligations.FramesAreSelfDelimiting :=
  fun _ _ rest hi h => decodeBeats_encode_append hi h rest

/-- Settles O27: the frame taken is the encoding with the key's unused lanes cleared. -/
theorem encodeOfDecodeIsTheFrame : Obligations.EncodeOfDecodeIsTheFrame := by
  intro hdr tail i rest h
  obtain ⟨body, rfl, hlen, hdec⟩ := decodeBeats_eq_instr_iff.1 h
  obtain ⟨hencodable, hencode⟩ := encode_decodeFrame hlen hdec
  refine ⟨hencodable, body, _, rfl, by omega, hencode, ?_⟩
  rw [← argOf_toNat]
  cases i.hasKey with
  | false => simp
  | true => exact ⟨clearUnusedLanes_length .., nofun, fun _ j _ => List.getElem?_mapIdx⟩

/-- Settles O28: the header alone is taken, and the answer is the error response with its byte. -/
theorem unassignedOpcodeIsAnswered : Obligations.UnassignedOpcodeIsAnswered := by
  intro s hdr rest hrst hfatal hbs hhp hrsp hrx hcmd h8
  have hdec : decodeBeats (s.rx ++ s.cmd) = .unassigned (opcOf hdr) rest := by
    rw [hrx, hcmd]
    exact decodeBeats_of_unassigned h8 rest
  have hopc : BitVec.ofNat 8 (hdr.toNat / 2 ^ 56) = opcOf hdr := by rw [← opcOf_toNat]; simp
  rw [hopc, step_unassigned hrst hfatal hbs hhp hrsp hdec, State.takeFrame_of_idle hrx]
  exact ⟨_, rfl, State.refusedWith_error _ _ (by decide)⟩

/-- Settles O23: closed words, evaluated by the decoder. -/
theorem sampleWordsDecode : Obligations.SampleWordsDecode := by
  unfold Obligations.SampleWordsDecode
  decide

/-- Settles O53: the name at the front of the line is read, both names select one branch of the parser, and the rest of the
line reaches it unread. -/
theorem pseudoInstructionsExpand : Obligations.PseudoInstructionsExpand :=
  fun _ => ⟨rfl, rfl⟩

end Sys2Proof.Machine
end

section
/-! PROOFS of the family `40_bitstore_rdwr.md`: on every word of the store `BS_SET` is an OR with a fixed mask, and the
micro-operations on their port and the laws of the bit store follow from that and from the reads of the memory. -/

namespace Sys2Proof.Machine

/-! ## `BS_SET` as an OR on every word (R82) -/

/-- The state `BS_SET(p)` leaves when `p` is in range. -/
def State.withBitSet (s : State) (p : Nat) : State :=
  s.memWrite (wordIndex p) (s.memRead (wordIndex p) ||| bitMask p)

/-- What `BS_SET(p)` ORs into word `w`. -/
def setMask (p w : Nat) : Word := if w = wordIndex p then bitMask p else 0

theorem bsSet_eq_withBitSet {p : Word} {s : State} (h : s.posInRange p = true) :
    bsSet p s = some (s.withBitSet p.toNat) := bsSet_of_inRange h

theorem State.withBitSet_posInRange (s : State) (p : Nat) (q : Word) :
    (s.withBitSet p).posInRange q = s.posInRange q := rfl

theorem State.withBitSet_memRead (s : State) (p w : Nat) :
    (s.withBitSet p).memRead w = s.memRead w ||| setMask p w := by
  rw [State.withBitSet, State.memRead_memWrite, setMask]
  by_cases h : w = wordIndex p
  · simp [h]
  · simp [h, Ne.symm h]

/-- Set twice is set once (R86): OR is idempotent. -/
theorem State.withBitSet_twice_memRead (s : State) (p w : Nat) :
    ((s.withBitSet p).withBitSet p).memRead w = (s.withBitSet p).memRead w := by
  simp only [State.withBitSet_memRead, BitVec.or_assoc, BitVec.or_self]

/-- Sets commute (R86): OR is associative and commutative. -/
theorem State.withBitSet_comm_memRead (s : State) (p q w : Nat) :
    ((s.withBitSet q).withBitSet p).memRead w = ((s.withBitSet p).withBitSet q).memRead w := by
  simp only [State.withBitSet_memRead, BitVec.or_assoc, BitVec.or_comm (setMask q w)]

/-! ## Gets after a set and after a clear (R81 to R84) -/

theorem bsGet_withBitSet {q : Word} {s : State} (h : s.posInRange q = true) (p : Nat) :
    bsGet q (s.withBitSet p) = some (s.bitAt q.toNat || decide (q.toNat = p)) :=
  (bsGet_of_inRange ((s.withBitSet_posInRange p q).trans h)).trans (congrArg some (s.bitAt_setBit p q.toNat))

theorem toNat_ofNat_wordIndex (p : Word) : (BitVec.ofNat 64 (wordIndex p.toNat)).toNat = wordIndex p.toNat :=
  Nat.mod_eq_of_lt (Nat.lt_of_le_of_lt (Nat.div_le_self ..) p.isLt)

/-- The word of a position of the filter is one of the filter's words (R17, R32). -/
theorem State.idxInRange_wordIndex {s : State} {p : Word} (h : s.posInRange p = true) :
    s.idxInRange (BitVec.ofNat 64 (wordIndex p.toNat)) = true := by
  obtain ⟨hc, hp⟩ := (s.posInRange_iff p).1 h
  refine (s.idxInRange_iff _).2 ⟨hc, ?_⟩
  rw [toNat_ofNat_wordIndex]
  unfold wordIndex State.nwords wordCount ceilDiv
  omega

/-- A get is the bit of the word that `BS_RDW` reads at the position's index (R83, R84). -/
theorem bsGet_eq_bit_of_word {p : Word} {s : State} (h : s.posInRange p = true) :
    bsGet p s =
      some (decide (s.memRead (BitVec.ofNat 64 (wordIndex p.toNat)).toNat >>> bitOffset p.toNat &&& 1 = 1)) := by
  rw [toNat_ofNat_wordIndex, bsGet, if_pos h]

/-- After the filter's words are cleared, every get in range answers 0 (R81, R83). -/
theorem bsGet_bsClear {q : Word} {s : State} (h : s.posInRange q = true) :
    bsGet q (bsClear (ceilDiv s.m.toNat 64) s) = some false := by
  have hq := ((s.posInRange_iff q).1 h).2
  have hlt : q.toNat < 64 * ceilDiv s.m.toNat 64 := by unfold ceilDiv; omega
  have hr : (bsClear (ceilDiv s.m.toNat 64) s).posInRange q = true := h
  rw [bsGet_of_inRange hr, bsClear, State.bitAt_memClear, if_pos hlt]

/-! ## The statements -/

/-- Settles O14: the state left is the one with the bit set, read word by word. -/
theorem bsSetRewritesOneWord : Obligations.BsSetRewritesOneWord := by
  intro pos s hc hp
  refine ⟨_, execBsSet_ok ((s.posInRange_iff pos).2 ⟨hc, hp⟩), rfl, fun w => ?_⟩
  change (s.withBitSet pos.toNat).memRead w = if w = wordIndex pos.toNat then s.memRead w ||| bitMask pos.toNat else _
  rw [State.withBitSet_memRead, setMask]
  split
  · rfl
  · exact BitVec.or_zero

/-- Settles O16: in the store's bounds the clear is the memory's, beyond them the fault. -/
theorem bsClearZeroesTheFirstWords : Obligations.BsClearZeroesTheFirstWords :=
  fun n s => ⟨fun hn => ⟨_, execBsClear_ok hn, rfl, s.memRead_memClear n.toNat⟩, execBsClear_fault⟩

/-- Settles O13: the bit at the place R32 gives it. -/
theorem bsGetAnswersTheBit : Obligations.BsGetAnswersTheBit :=
  fun pos s hc hp => execBsGet_ok ((s.posInRange_iff pos).2 ⟨hc, hp⟩)

/-- Settles O15: the word at the index asked for. -/
theorem bsRdwAnswersTheWord : Obligations.BsRdwAnswersTheWord :=
  fun idx s hc hi => execBsRdw_ok ((s.idxInRange_iff idx).2 ⟨hc, hi⟩)

/-- Settles O48: the laws of set from the bits and words of `withBitSet`, the others from the reads in range. -/
theorem bitStoreLaws : Obligations.BitStoreLaws := by
  intro s p q hc hp hq
  have hp' : s.posInRange p = true := (s.posInRange_iff p).2 ⟨hc, hp⟩
  have hq' : s.posInRange q = true := (s.posInRange_iff q).2 ⟨hc, hq⟩
  have hidx := State.idxInRange_wordIndex hp'
  refine ⟨⟨s.withBitSet p.toNat, bsSet_eq_withBitSet hp', ?getSame, ?getOther,
      ⟨_, bsSet_eq_withBitSet hp', s.withBitSet_twice_memRead p.toNat⟩,
      ⟨_, _, _, bsSet_eq_withBitSet hq', bsSet_eq_withBitSet hq', bsSet_eq_withBitSet hp',
        s.withBitSet_comm_memRead p.toNat q.toNat⟩⟩,
    bsGet_bsClear hq', ⟨_, bsGet_of_inRange hp', execBsGet_ok hp'⟩,
    ⟨_, bsRdw_of_inRange hidx, execBsRdw_ok hidx, bsGet_eq_bit_of_word hp'⟩⟩
  case getSame =>
    simp [bsGet_withBitSet hp']
  case getOther =>
    intro hne
    have hpos : q.toNat ≠ p.toNat := BitVec.toNat_ne.1 hne
    simp [bsGet_withBitSet hq', bsGet_of_inRange hq', hpos]

end Sys2Proof.Machine
end

section
/-! PROOFS of the family `41_hash_probe_engine.md`: the hash over words consumes its key eight bytes at a time, as R91 written
over the naturals does, and each of its operations is the natural one reduced modulo `2^64`. -/

namespace Sys2Proof.Machine

/-! ## The operations of the hash over the naturals (R96) -/

theorem mul_hashMul_toNat (h : Word) : (h * hashMul).toNat = natMul h.toNat := by
  rw [BitVec.toNat_mul, Nat.mul_comm]
  rfl

theorem xorShift_toNat (h : Word) : (xorShift h).toNat = natXorShift h.toNat := by
  rw [xorShift, BitVec.toNat_xor, BitVec.toNat_ushiftRight, Nat.shiftRight_eq_div_pow]
  rfl

theorem natMul_mod (n : Nat) : natMul (n % 2 ^ 64) = natMul n := Nat.mul_mod_mod ..

theorem hashInit_toNat (len : Nat) (seed : Word) : (hashInit len seed).toNat = seed.toNat ^^^ natMul len := by
  rw [hashInit, BitVec.toNat_xor, mul_hashMul_toNat, BitVec.toNat_ofNat, natMul_mod]

theorem hashChunk_toNat (h c : Word) :
    (hashChunk h c).toNat = natMul (h.toNat ^^^ natMul (natXorShift (natMul c.toNat))) := by
  rw [hashChunk, mul_hashMul_toNat, BitVec.toNat_xor, mul_hashMul_toNat, xorShift_toNat, mul_hashMul_toNat]

theorem hashFinish_toNat (h : Word) : (hashFinish h).toNat = natXorShift (natMul (natXorShift h.toNat)) := by
  rw [hashFinish, xorShift_toNat, mul_hashMul_toNat, xorShift_toNat]

/-! ## Steps 3 and 4 by the length of the key (R31, R91) -/

theorem chunkAt_zero (data : List Byte) : chunkAt data 0 = leWord (data.take 8) := rfl

theorem chunkAt_succ (data : List Byte) (j : Nat) : chunkAt data (j + 1) = chunkAt (data.drop 8) j := by
  rw [chunkAt, chunkAt, keySlice, keySlice, List.drop_drop, Nat.mul_succ, Nat.add_comm]

theorem hashChunks_of_short {data : List Byte} (hlen : data.length < 8) (h : Word) : hashChunks data h = h := by
  rw [hashChunks, Nat.div_eq_of_lt hlen]
  rfl

/-- The first chunk is mixed in, then the chunks of the bytes after it. -/
theorem hashChunks_of_long {data : List Byte} (hlen : 8 ≤ data.length) (h : Word) :
    hashChunks data h = hashChunks (data.drop 8) (hashChunk h (leWord (data.take 8))) := by
  have hcount : data.length / 8 = (data.drop 8).length / 8 + 1 := by rw [List.length_drop]; omega
  simp only [hashChunks, hcount, List.range_succ_eq_map, List.foldl_cons, List.foldl_map, chunkAt_zero, chunkAt_succ]

theorem hashTail_nil (h : Word) : hashTail [] h = h := rfl

theorem hashTail_of_short {data : List Byte} (hpos : 1 ≤ data.length) (hlen : data.length < 8) (h : Word) :
    hashTail data h = (h ^^^ leWord data) * hashMul := by
  have hrest : data.length % 8 ≠ 0 := by omega
  rw [hashTail, if_neg hrest, tailWord, Nat.div_eq_of_lt hlen, Nat.mul_zero, List.drop_zero]

/-- The tail is that of the bytes after the first chunk. -/
theorem hashTail_of_long {data : List Byte} (hlen : 8 ≤ data.length) (h : Word) :
    hashTail data h = hashTail (data.drop 8) h := by
  have hrest : (data.drop 8).length % 8 = data.length % 8 := by rw [List.length_drop]; omega
  have htail : tailWord (data.drop 8) = tailWord data := by
    rw [tailWord, tailWord, List.drop_drop, List.length_drop]
    congr 2
    omega
  rw [hashTail, hashTail, hrest, htail]

/-! ## The hash of R91 -/

/-- Steps 3 and 4 over words are those over the naturals, by induction on the number of whole chunks. -/
theorem hashTail_hashChunks_toNat {q : Nat} {data : List Byte} (hq : data.length / 8 = q) (h : Word) :
    (hashTail data (hashChunks data h)).toNat = natHashBody q data h.toNat := by
  induction q generalizing data h with
  | zero =>
    have hshort : data.length < 8 := by omega
    rw [hashChunks_of_short hshort, natHashBody]
    split
    next hnil => rw [List.eq_nil_of_length_eq_zero hnil, hashTail_nil]
    next hne =>
      rw [hashTail_of_short (by omega) hshort, mul_hashMul_toNat, BitVec.toNat_xor, leWord_toNat _ (by omega)]
  | succ q ih =>
    have hlong : 8 ≤ data.length := by omega
    have hdrop : (data.drop 8).length / 8 = q := by rw [List.length_drop]; omega
    rw [hashChunks_of_long hlong, hashTail_of_long hlong, ih hdrop, hashChunk_toNat,
      leWord_toNat _ (List.length_take_le 8 data), natHashBody]

/-- The hash over words is R91 over the naturals (R96). -/
theorem hpHash_toNat (key : List Byte) (seed : Word) : (hpHash key seed).toNat = natHash key seed.toNat := by
  rw [hpHash, hashFinish_toNat, hashTail_hashChunks_toNat rfl, hashInit_toNat, natHash]

/-- A key of 1 to 7 bytes has no whole chunk: its bytes are the tail word, and seed and tail word enter only together. -/
theorem hpHash_of_short {data : List Byte} (hpos : 1 ≤ data.length) (hlen : data.length < 8) (seed : Word) :
    hpHash data seed = hashFinish ((seed ^^^ leWord data ^^^ BitVec.ofNat 64 data.length * hashMul) * hashMul) := by
  rw [hpHash, hashChunks_of_short hlen, hashTail_of_short hpos hlen, hashInit, BitVec.xor_assoc,
    BitVec.xor_comm (_ * _), ← BitVec.xor_assoc]

/-! ## The statements -/

/-- Settles O20: both hashes consume the key eight bytes at a time by the same operations. -/
theorem hashIsUnsignedModularArithmetic : Obligations.HashIsUnsignedModularArithmetic :=
  hpHash_toNat

/-- Settles O18: the word put on the port is the hash. -/
theorem hpHashAnswersTheHash : Obligations.HpHashAnswersTheHash :=
  fun seed key _ => ⟨hpHash key seed, rfl, hpHash_toNat key seed⟩

/-- Settles O19: the word put on the port is the probe, for `m = 0` too; otherwise it is the remainder of the hash. -/
theorem hpProbeAnswersTheRemainder : Obligations.HpProbeAnswersTheRemainder := by
  intro seed m key s
  refine ⟨fun hm => ⟨hpProbe key seed m, rfl, ?_, hpProbe_lt key seed hm⟩, fun _ => ⟨hpProbe key seed m, rfl⟩⟩
  rw [hpProbe_toNat key seed hm, hpHash_toNat]

/-- Settles O21: seed and tail word enter the hash only through their exclusive or, next to a term in the common length. -/
theorem shortKeysHashBySeedXorTail : Obligations.ShortKeysHashBySeedXorTail := by
  intro a b x y hpos hle hlen hxor
  rw [hpHash_of_short hpos (by omega), hpHash_of_short (by omega) (by omega), hxor, hlen]

end Sys2Proof.Machine
end

section
/-! PROOFS of the family `42_bloom_filter_core.md`: what `CFG`, `ADD` and `QRY` do, that the bits of a filter only grow until
it is rebuilt, so a key once held stays held at every step, and what R106 and R107 derive from that. -/

namespace Sys2Proof.Machine

/-! ## The filters of two states (R15, R24) -/

section Relations

/-- `t` has the parameters, the geometry and the flag `CFGD` of `s`. -/
structure State.SameGeometry (s t : State) : Prop where
  m : t.m = s.m
  k : t.k = s.k
  cfgd : t.cfgd = s.cfgd
  config : t.config = s.config

/-- In the same geometry, `t` has every bit that `s` has. -/
structure State.FilterGrows (s t : State) : Prop extends s.SameGeometry t where
  bits : s.bitsGrow t

/-- In the same geometry, `t` has every word of `s`. -/
structure State.FilterUnchanged (s t : State) : Prop extends s.SameGeometry t where
  words : ∀ w, t.memRead w = s.memRead w

variable {key : List Byte} {s t u : State}

theorem State.SameGeometry.refl (s : State) : s.SameGeometry s := ⟨rfl, rfl, rfl, rfl⟩

theorem State.SameGeometry.trans (h : s.SameGeometry t) (h' : t.SameGeometry u) : s.SameGeometry u :=
  ⟨h'.m.trans h.m, h'.k.trans h.k, h'.cfgd.trans h.cfgd, h'.config.trans h.config⟩

theorem State.SameGeometry.symm (h : s.SameGeometry t) : t.SameGeometry s :=
  ⟨h.m.symm, h.k.symm, h.cfgd.symm, h.config.symm⟩

theorem State.FilterGrows.refl (s : State) : s.FilterGrows s := ⟨.refl s, fun _ hq => hq⟩

theorem State.FilterGrows.trans (h : s.FilterGrows t) (h' : t.FilterGrows u) : s.FilterGrows u :=
  ⟨h.toSameGeometry.trans h'.toSameGeometry, fun q hq => h'.bits q (h.bits q hq)⟩

/-- What a step does on the ports alone leaves the filter. -/
theorem State.FilterGrows.of_eq (hm : t.m = s.m) (hk : t.k = s.k) (hcfgd : t.cfgd = s.cfgd)
    (hconfig : t.config = s.config) (hbits : ∀ q, t.bitAt q = s.bitAt q) : s.FilterGrows t :=
  ⟨⟨hm, hk, hcfgd, hconfig⟩, fun q hq => (hbits q).trans hq⟩

theorem State.FilterUnchanged.refl (s : State) : s.FilterUnchanged s := ⟨.refl s, fun _ => rfl⟩

theorem State.FilterUnchanged.trans (h : s.FilterUnchanged t) (h' : t.FilterUnchanged u) : s.FilterUnchanged u :=
  ⟨h.toSameGeometry.trans h'.toSameGeometry, fun w => (h'.words w).trans (h.words w)⟩

/-- In one geometry a key probes the same positions. -/
theorem State.SameGeometry.probes_eq (h : s.SameGeometry t) (key : List Byte) :
    probes key t.m t.k = probes key s.m s.k := by
  rw [h.m, h.k]

theorem State.FilterGrows.holds (h : s.FilterGrows t) (hs : s.holds key) : t.holds key := by
  intro p hp
  rw [h.probes_eq] at hp
  exact h.bits _ (hs p hp)

theorem State.FilterUnchanged.holds_iff (h : s.FilterUnchanged t) : t.holds key ↔ s.holds key := by
  simp only [State.holds, h.probes_eq, bitAt_eq_of_memRead h.words]

end Relations

/-! ## Instructions, runs and steps that do not rebuild the filter (R24) -/

section Keeping

variable {c : Config} {i : Instr} {is : List Instr} {s t : State}

theorem exec_sameGeometry (hi : i.rebuilds s.config = false) (h : exec i s = .next t) : s.SameGeometry t := by
  obtain ⟨hconfig, hgeometry, -⟩ := registersChangeOnlyAsStated i s t h
  obtain ⟨hm, hk, hcfgd, -⟩ := hgeometry (.inr hi)
  exact ⟨hm, hk, hcfgd, hconfig⟩

theorem exec_filterGrows (hi : i.rebuilds s.config = false) (h : exec i s = .next t) : s.FilterGrows t :=
  ⟨exec_sameGeometry hi h, (bitsOnlyGrow i s t hi h).1⟩

theorem exec_filterUnchanged (hi : i.rebuilds s.config = false) (hadd : ∀ rsv x, i ≠ .add rsv x)
    (hset : ∀ pos, i ≠ .bsSet pos) (h : exec i s = .next t) : s.FilterUnchanged t :=
  ⟨exec_sameGeometry hi h, (bitsOnlyGrow i s t hi h).2 hadd hset⟩

theorem execAll_filterGrows (hc : s.config = c) (his : ∀ i ∈ is, i.rebuilds c = false) (h : execAll is s = .next t) :
    s.FilterGrows t :=
  execAll_induct (P := State.FilterGrows) .refl (fun _ _ _ => .trans)
    (fun i hi _ _ hc' he => exec_filterGrows (hc' ▸ his i hi) he) hc h

theorem execAll_filterUnchanged (hc : s.config = c)
    (his : ∀ i ∈ is, i.rebuilds c = false ∧ (∀ rsv x, i ≠ .add rsv x) ∧ ∀ pos, i ≠ .bsSet pos)
    (h : execAll is s = .next t) : s.FilterUnchanged t := by
  refine execAll_induct (P := State.FilterUnchanged) .refl (fun _ _ _ => .trans) (fun i hi s' t' hc' he => ?_) hc h
  obtain ⟨hrebuilds, hadd, hset⟩ := his i hi
  exact exec_filterUnchanged (hc' ▸ hrebuilds) hadd hset he

/-- A request on the hash engine's port only answers there (R66). -/
theorem exec_decodeHp (r : HpReq) (s : State) : ∃ v, exec (decodeHp r) s = .next (s.setHpRsp v) := by
  unfold decodeHp
  split
  · exact ⟨_, rfl⟩
  · exact ⟨_, rfl⟩

/-- A step out of reset keeps every bit of the filter, when the instruction it executes does not rebuild it. -/
theorem step_filterGrows (hrst : s.rstN = true)
    (hcmd : s.bsReq = none → s.hpReq = none → s.rsp = [] →
      ∀ i rest, decodeBeats (s.rx ++ s.cmd) = .instr i rest → i.rebuilds s.config = false)
    (hbs : ∀ r, s.bsReq = some r → (decodeBs r).rebuilds s.config = false) (h : step s = .next t) :
    s.FilterGrows t := by
  rcases step_cases h with ⟨hreset, -⟩ | ⟨-, -, ⟨r, hr, he⟩ | ⟨-, r, -, he⟩ | ⟨-, -, -, rfl⟩ | ⟨hb, hp, hrsp, hport⟩⟩
  · rw [hrst] at hreset; cases hreset
  · have htake : s.FilterGrows s.takeBsReq := .of_eq rfl rfl rfl rfl fun _ => rfl
    exact htake.trans (exec_filterGrows (hbs r hr) he)
  · obtain ⟨v, hv⟩ := exec_decodeHp r s.takeHpReq
    obtain rfl : s.takeHpReq.setHpRsp v = t := by rw [hv] at he; injection he
    exact .of_eq rfl rfl rfl rfl fun _ => rfl
  · exact .of_eq (by simp) (by simp) (by simp) (by simp) (by simp)
  · rcases hport with ⟨i, rest, hdec, he⟩ | ⟨opc, rest, -, rfl⟩ | ⟨-, rfl⟩
    · have htake : s.FilterGrows (s.takeFrame rest) := .of_eq rfl rfl rfl rfl fun _ => rfl
      exact htake.trans (exec_filterGrows (hcmd hb hp hrsp i rest hdec) he)
    · exact .of_eq rfl rfl rfl rfl fun _ => rfl
    · exact .of_eq rfl rfl rfl rfl fun _ => rfl

end Keeping

/-- Settles O42: the bits of the filter grow in the step, and the probes of a key are fixed by the geometry. -/
theorem membershipSurvivesEveryStep : Obligations.MembershipSurvivesEveryStep := by
  intro key s t hrst hc hholds hcmd hbs hstep
  have h := step_filterGrows hrst hcmd hbs hstep
  exact ⟨h.holds hholds, h.cfgd.trans hc, h.m, h.k, h.config⟩

/-! ## A filter that takes a key, and what `CFG`, `ADD` and `QRY` then do (R101, R102, R103) -/

section Commands

variable {key key' : List Byte} {m : BitVec 64} {k : BitVec 32} {s t : State}

/-- `s` has a filter of at least one bit, and `key` is within `KEY_MAX`: `ADD key` and `QRY key` pass their checks (R127). -/
structure State.Accepts (s : State) (key : List Byte) : Prop where
  cfgd : s.cfgd = true
  one_le_m : 1 ≤ s.m.toNat
  length_le : key.length ≤ s.config.keyMax.toNat

theorem State.SameGeometry.accepts (h : s.SameGeometry t) (ha : s.Accepts key) : t.Accepts key :=
  ⟨h.cfgd.trans ha.cfgd, by rw [h.m]; exact ha.one_le_m, by rw [h.config]; exact ha.length_le⟩

/-- `t` is `s` after an accepted `ADD key` (R102): the bits of the probes are added, the rest of the filter stays. -/
structure State.Added (key : List Byte) (s t : State) : Prop extends s.SameGeometry t where
  answer : s.answered t 0x02 0x00 0
  fatal : t.fatal = s.fatal
  bits : ∀ q, t.bitAt q = true ↔ s.bitAt q = true ∨ ∃ p ∈ probes key s.m s.k, p.toNat = q

theorem exec_add_added (ha : s.Accepts key) : ∃ t, exec (.add 0 key) s = .next t ∧ s.Added key t := by
  obtain ⟨bits, he, hbits⟩ := exec_add_ok ha.cfgd ha.one_le_m ha.length_le
  exact ⟨_, he, ⟨rfl, rfl, rfl, rfl⟩, ⟨rfl, rfl, State.samePorts_respond ..⟩, rfl, hbits⟩

/-- `ADD` sets the probes of every key that probes no others. -/
theorem State.Added.holds_of_subset (h : s.Added key t) (hsub : probes key' s.m s.k ⊆ probes key s.m s.k) :
    t.holds key' := by
  intro p hp
  rw [h.probes_eq] at hp
  exact (h.bits p.toNat).2 (.inr ⟨p, hsub hp, rfl⟩)

theorem State.Added.holds (h : s.Added key t) : t.holds key :=
  h.holds_of_subset (List.Subset.refl _)

/-- Two states with the same registers and the same bits have the same filter. -/
theorem sameFilter_of_bits (h : s.SameGeometry t) (hfatal : t.fatal = s.fatal)
    (hbits : ∀ q, t.bitAt q = true ↔ s.bitAt q = true) : s.sameFilter t :=
  ⟨h.m, h.k, h.cfgd, hfatal, fun _ => memRead_eq_of_bits fun q _ => Bool.eq_iff_iff.2 (hbits q)⟩

theorem holds_iff (hm : s.m ≠ 0) :
    s.holds key ↔ ∀ i, i < s.k.toNat → s.bitAt ((hpHash key (BitVec.ofNat 64 i)).toNat % s.m.toNat) = true := by
  simp [State.holds, probes, hpProbe_toNat _ _ hm]

theorem exec_qry_of_holds (ha : s.Accepts key) (h : s.holds key) :
    exec (.qry 0 key) s = .next (s.respond 0x03 .ok 1) := by
  rw [exec_qry_ok ha.cfgd ha.one_le_m ha.length_le, List.all_eq_true.2 h]
  rfl

theorem exec_qry_of_not_holds (ha : s.Accepts key) (h : ¬ s.holds key) :
    exec (.qry 0 key) s = .next (s.respond 0x03 .ok 0) := by
  rw [exec_qry_ok ha.cfgd ha.one_le_m ha.length_le, Bool.eq_false_iff.2 (mt List.all_eq_true.1 h)]
  rfl

/-- A held key is answered 1 (R103). -/
theorem qry_answers_one (ha : s.Accepts key) (h : s.holds key) :
    ∃ t, exec (.qry 0 key) s = .next t ∧ s.answered t 0x03 0x00 1 ∧ s.sameFilter t :=
  ⟨_, exec_qry_of_holds ha h, s.answered_ok .., s.sameFilter_respond ..⟩

/-- A key that is not held is answered 0 (R103). -/
theorem qry_answers_zero (ha : s.Accepts key) (h : ¬ s.holds key) :
    ∃ t, exec (.qry 0 key) s = .next t ∧ s.answered t 0x03 0x00 0 ∧ s.sameFilter t :=
  ⟨_, exec_qry_of_not_holds ha h, s.answered_ok .., s.sameFilter_respond ..⟩

/-- Only a held key is answered 1: every refusal has the value 0 (R103, R128). -/
theorem holds_of_qry_one (hone : s.cfgd = true → 1 ≤ s.m.toNat) (he : exec (.qry 0 key) s = .next t)
    (hrsp : t.rsp = [0x0300000000000000, 1]) : s.Accepts key ∧ s.holds key := by
  have hzero : ∀ {c}, exec (.qry 0 key) s ≠ .next (s.respond 0x03 c 0) := by
    intro c hother
    obtain rfl : s.respond 0x03 c 0 = t := by rw [hother] at he; injection he
    simp at hrsp
  cases hc : s.cfgd with
  | false => exact absurd (execQry_nocfg rfl hc) hzero
  | true =>
    by_cases hlen : key.length ≤ s.config.keyMax.toNat
    · have ha : s.Accepts key := ⟨hc, hone hc, hlen⟩
      exact ⟨ha, by_contra fun hnot => hzero (exec_qry_of_not_holds ha hnot)⟩
    · exact absurd (execQry_cap rfl hc (Nat.lt_of_not_le hlen)) hzero

/-- `t` is `s` after a legal `CFG` of `bits` bits and `count` probes (R101): its words are cleared and no other. -/
structure State.Configured (bits : BitVec 64) (count : BitVec 32) (s t : State) : Prop where
  answer : s.answered t 0x01 0x00 0
  m : t.m = bits
  k : t.k = count
  cfgd : t.cfgd = true
  fatal : t.fatal = s.fatal
  config : t.config = s.config
  words : ∀ w, t.memRead w = if w < wordCount bits then 0 else s.memRead w

theorem exec_cfg_configured (hm : 1 ≤ m.toNat) (hM : m.toNat ≤ s.config.mMax.toNat) (hk : 1 ≤ k.toNat)
    (hK : k.toNat ≤ s.config.kMax.toNat) : ∃ t, exec (.cfg 0 m k) s = .next t ∧ s.Configured m k t :=
  ⟨_, execCfg_ok rfl (ne_zero_of_one_le hm) (ne_zero_of_one_le hk) hM hK,
    ⟨rfl, rfl, State.samePorts_respond ..⟩, rfl, rfl, rfl, rfl, rfl, State.memRead_memClear _ (wordCount m)⟩

theorem State.Configured.accepts (h : s.Configured m k t) (hm : 1 ≤ m.toNat)
    (hlen : key.length ≤ s.config.keyMax.toNat) : t.Accepts key :=
  ⟨h.cfgd, by rw [h.m]; exact hm, by rw [h.config]; exact hlen⟩

/-- No bit of the new filter is set (R101, R81). -/
theorem State.Configured.bitAt (h : s.Configured m k t) {q : Nat} (hq : q < m.toNat) : t.bitAt q = false := by
  have hw : wordIndex q < wordCount m := by unfold wordIndex wordCount ceilDiv; omega
  rw [State.bitAt, h.words, if_pos hw]
  exact BitVec.getLsbD_zero

/-- The new filter holds no key, since a key has at least one probe (R106 (f)). -/
theorem State.Configured.not_holds (h : s.Configured m k t) (hm : 1 ≤ m.toNat) (hk : 1 ≤ k.toNat) :
    ¬ t.holds key := by
  intro hholds
  have hset := (holds_iff (by rw [h.m]; exact ne_zero_of_one_le hm)).1 hholds 0 (by rw [h.k]; exact hk)
  rw [h.m, h.bitAt (Nat.mod_lt _ hm)] at hset
  cases hset

/-- With one bit and one probe every key probes position 0 (R106 (e)). -/
theorem probes_one_one (key : List Byte) : probes key 1 1 = [0] := by
  have hlt := hpProbe_lt key 0 (m := 1) (by decide)
  have hzero : hpProbe key 0 1 = 0 := BitVec.eq_of_toNat_eq (Nat.lt_one_iff.1 hlt)
  exact congrArg (fun p => [p]) hzero

end Commands

/-! ## The statements on `CFG`, `ADD` and `QRY` (R101 to R103, R122 to R124) -/

/-- Settles O8: what the state after a legal `CFG` is. -/
theorem cfgConstructsAnEmptyFilter : Obligations.CfgConstructsAnEmptyFilter := by
  intro m k s hm hM hk hK
  obtain ⟨t, he, h⟩ := exec_cfg_configured hm hM hk hK
  exact ⟨t, he, h.answer, h.m, h.k, h.cfgd, h.fatal, h.words⟩

/-- Settles O9: the checks in their order. -/
theorem cfgRefusesAndKeepsTheFilter : Obligations.CfgRefusesAndKeepsTheFilter := by
  intro rsv m k s
  refine ⟨fun h => ?illegal, fun ⟨h, hzero⟩ => ?zero, fun ⟨h, hm, hk, hcap⟩ => ?cap⟩
  case illegal => exact refusedWith_of_eq .illegal (by decide) (execCfg_rsv h)
  case zero => exact refusedWith_of_eq .cfg (by decide) (execCfg_zero h hzero)
  case cap => exact refusedWith_of_eq .cap (by decide) (execCfg_cap h hm hk hcap)

/-- Settles O10: a word in which no probe lies keeps its bits. -/
theorem addSetsExactlyTheProbes : Obligations.AddSetsExactlyTheProbes := by
  intro key s hc hm hlen
  obtain ⟨t, he, h⟩ := exec_add_added (key := key) ⟨hc, hm, hlen⟩
  have hbits : ∀ q, t.bitAt q = true ↔
      s.bitAt q = true ∨ ∃ i, i < s.k.toNat ∧ (hpHash key (BitVec.ofNat 64 i)).toNat % s.m.toNat = q := by
    intro q
    rw [h.bits, mem_probes (ne_zero_of_one_le hm)]
  refine ⟨t, he, h.answer, h.m, h.k, h.cfgd, h.fatal, hbits, fun w hw => memRead_eq_of_bits ?_⟩
  rintro q rfl
  refine Bool.eq_iff_iff.2 ((hbits q).trans (or_iff_left ?_))
  rintro ⟨i, hi, rfl⟩
  exact hw i hi rfl

/-- Settles O11: the key is held or it is not. -/
theorem qryTestsAllTheProbes : Obligations.QryTestsAllTheProbes := by
  intro key s hc hm hlen
  have ha : s.Accepts key := ⟨hc, hm, hlen⟩
  have hiff := holds_iff (key := key) (ne_zero_of_one_le hm)
  by_cases h : s.holds key
  · obtain ⟨t, he, hanswer, hsame⟩ := qry_answers_one ha h
    refine ⟨t, 1, he, hanswer, hsame, fun _ => rfl, ?_⟩
    rintro ⟨i, hi, hclear⟩
    rw [hiff.1 h i hi] at hclear
    cases hclear
  · obtain ⟨t, he, hanswer, hsame⟩ := qry_answers_zero ha h
    exact ⟨t, 0, he, hanswer, hsame, fun hall => absurd (hiff.2 hall) h, fun _ => rfl⟩

/-- Settles O12: the checks in their order, the same for both commands. -/
theorem addAndQryRefuse : Obligations.AddAndQryRefuse := by
  intro rsv key s
  refine ⟨fun h => ?illegal, fun ⟨h, hc⟩ => ?nocfg, fun ⟨h, hc, hlen⟩ => ?cap⟩
  case illegal =>
    exact ⟨refusedWith_of_eq .illegal (by decide) (execAdd_rsv h),
      refusedWith_of_eq .illegal (by decide) (execQry_rsv h)⟩
  case nocfg =>
    exact ⟨refusedWith_of_eq .nocfg (by decide) (execAdd_nocfg h hc),
      refusedWith_of_eq .nocfg (by decide) (execQry_nocfg h hc)⟩
  case cap =>
    exact ⟨refusedWith_of_eq .cap (by decide) (execAdd_cap h hc hlen),
      refusedWith_of_eq .cap (by decide) (execQry_cap h hc hlen)⟩

/-! ## Commands complete (R104, R105, R156) -/

/-- With a filter of at least one bit, no command touches `FATAL` (R105). -/
theorem exec_command_fatal {i : Instr} {s t : State} (hi : i.isCommand = true)
    (hone : s.cfgd = true → 1 ≤ s.m.toNat) (h : exec i s = .next t) : t.fatal = s.fatal := by
  rcases command_answers hi hone h with ⟨o, c, v, rfl⟩ | ⟨m, k, -, -, -, -, -, rfl⟩ | ⟨key, u, -, -, -, hu, rfl⟩
  · rfl
  · rfl
  · obtain ⟨bits, rfl, -⟩ := setAll_done hu
    rfl

/-- Settles O38: the cases of a step with no bit-store request, each of which completes. -/
theorem commandStreamsNeverStop : Obligations.CommandStreamsNeverStop := by
  intro s h hfatal hbs
  cases hrst : s.rstN with
  | false => exact ⟨_, step_reset hrst, rfl, rfl⟩
  | true =>
  cases hhp : s.hpReq with
  | some r =>
    obtain ⟨v, he⟩ := exec_decodeHp r s.takeHpReq
    exact ⟨_, (step_hp hrst hfatal hbs hhp).trans he, hfatal, hbs⟩
  | none =>
  cases hrsp : s.rsp with
  | cons b bs =>
    exact ⟨_, step_response hrst hfatal hbs hhp hrsp, s.transferBeat_fatal.trans hfatal,
      s.transferBeat_bsReq.trans hbs⟩
  | nil =>
  cases hdec : decodeBeats (s.rx ++ s.cmd) with
  | instr i rest =>
    have hi := decodeBeats_isCommand hdec
    obtain ⟨t, he⟩ := exec_total (s.takeFrame rest) hi
    obtain ⟨-, hbsReq, -⟩ := exec_ports he
    exact ⟨t, (step_command hrst hfatal hbs hhp hrsp hdec).trans he,
      (exec_command_fatal hi (h.takeFrame rest).one_le_m he).trans hfatal, hbsReq.trans hbs⟩
  | unassigned opc rest => exact ⟨_, step_unassigned hrst hfatal hbs hhp hrsp hdec, hfatal, hbs⟩
  | incomplete => exact ⟨_, step_incomplete hrst hfatal hbs hhp hrsp hdec, hfatal, hbs⟩

/-! ## The properties that follow (R106, R107) -/

/-- Settles O41: `ADD` makes the filter hold the key, and the run keeps it. -/
theorem noFalseNegatives : Obligations.NoFalseNegatives := by
  intro key is s t hc hm hlen his h
  have ha : s.Accepts key := ⟨hc, hm, hlen⟩
  obtain ⟨u, hu, hadded⟩ := exec_add_added ha
  rw [execAll_cons hu] at h
  have hgrows := execAll_filterGrows hadded.config his h
  exact qry_answers_one (hgrows.accepts (hadded.accepts ha)) (hgrows.holds hadded.holds)

/-- Settles O54: the answer 1 says that the key is held, and `QRY` and the run keep it. -/
theorem answeredYesStaysYes : Obligations.AnsweredYesStaysYes := by
  intro key is s t u hone his hqry hrsp hrun
  obtain ⟨ha, hholds⟩ := holds_of_qry_one hone hqry hrsp
  have hquery : s.FilterGrows t := exec_filterGrows rfl hqry
  have hgrows := hquery.trans (execAll_filterGrows hquery.config his hrun)
  exact qry_answers_one (hgrows.accepts ha) (hgrows.holds hholds)

/-- Settles O43: the new filter holds no key, and the run leaves its words. -/
theorem emptyFilterAnswersNo : Obligations.EmptyFilterAnswersNo := by
  intro m k key is s t hm hM hk hK hlen his h
  obtain ⟨c, he, hcfg⟩ := exec_cfg_configured hm hM hk hK
  rw [execAll_cons he] at h
  have hsame := execAll_filterUnchanged hcfg.config his h
  obtain ⟨u, hu, hanswer, -⟩ :=
    qry_answers_zero (hsame.accepts (hcfg.accepts hm hlen)) (mt hsame.holds_iff.1 (hcfg.not_holds hm hk))
  exact ⟨u, hu, hanswer⟩

/-- Settles O44: the second `ADD` adds bits that are set. -/
theorem addIsIdempotent : Obligations.AddIsIdempotent := by
  intro key s hc hm hlen
  have ha : s.Accepts key := ⟨hc, hm, hlen⟩
  obtain ⟨t, ht, hfirst⟩ := exec_add_added ha
  obtain ⟨u, hu, hsecond⟩ := exec_add_added (hfirst.accepts ha)
  refine ⟨t, u, ht, hu, sameFilter_of_bits hsecond.toSameGeometry hsecond.fatal fun q => ?_⟩
  rw [hsecond.bits]
  refine or_iff_left_of_imp ?_
  rintro ⟨p, hp, rfl⟩
  exact hfirst.holds p hp

/-- Settles O45: either order adds the probes of both keys. -/
theorem addsCommute : Obligations.AddsCommute := by
  intro a b s hc hm hla hlb
  have haa : s.Accepts a := ⟨hc, hm, hla⟩
  have hab : s.Accepts b := ⟨hc, hm, hlb⟩
  obtain ⟨sa, hsa, ha⟩ := exec_add_added haa
  obtain ⟨sb, hsb, hb⟩ := exec_add_added hab
  obtain ⟨t, ht, hat⟩ := exec_add_added (ha.accepts hab)
  obtain ⟨u, hu, hbu⟩ := exec_add_added (hb.accepts haa)
  refine ⟨t, u, by rw [execAll_cons hsa, execAll_cons ht]; rfl, by rw [execAll_cons hsb, execAll_cons hu]; rfl, ?_⟩
  have hst := ha.toSameGeometry.trans hat.toSameGeometry
  have hsu := hb.toSameGeometry.trans hbu.toSameGeometry
  have hfatal : u.fatal = t.fatal := by rw [hbu.fatal, hb.fatal, hat.fatal, ha.fatal]
  refine sameFilter_of_bits (hst.symm.trans hsu) hfatal fun q => ?_
  rw [hat.bits, ha.bits, ha.probes_eq, hbu.bits, hb.bits, hb.probes_eq]
  exact or_right_comm

/-- Settles O46: both keys probe the one position. -/
theorem singleBitFilterAnswersYes : Obligations.SingleBitFilterAnswersYes := by
  intro a b s hc hm hk hla hlb
  have hone : 1 ≤ s.m.toNat := by rw [hm]; decide
  have hsub : probes b s.m s.k ⊆ probes a s.m s.k := by
    rw [hm, hk, probes_one_one, probes_one_one]
    exact List.Subset.refl _
  obtain ⟨t, ht, hadded⟩ := exec_add_added (key := a) ⟨hc, hone, hla⟩
  obtain ⟨u, hu, hanswer, -⟩ :=
    qry_answers_one (hadded.accepts ⟨hc, hone, hlb⟩) (hadded.holds_of_subset hsub)
  exact ⟨t, u, ht, hu, hanswer⟩

/-- Settles O47: the commands leave every word, so the key is held after them exactly when it was before; a key beyond
`KEY_MAX` is refused both times. -/
theorem observationDoesNotDisturbQueries : Obligations.ObservationDoesNotDisturbQueries := by
  intro key is s t u his hc hm hrun hqry
  have hsame : s.FilterUnchanged t := by
    refine execAll_filterUnchanged rfl (fun i hi => ?_) hrun
    obtain ⟨hrebuilds, hcommand, hadd⟩ := his i hi
    refine ⟨hrebuilds, hadd, ?_⟩
    rintro pos rfl
    cases hcommand
  have alike : ∀ {c v}, exec (.qry 0 key) s = .next (s.respond 0x03 c v) →
      exec (.qry 0 key) t = .next (t.respond 0x03 c v) → ∃ w, exec (.qry 0 key) t = .next w ∧ w.rsp = u.rsp := by
    intro c v hs ht
    obtain rfl : s.respond 0x03 c v = u := by rw [hs] at hqry; injection hqry
    exact ⟨_, ht, rfl⟩
  by_cases hlen : key.length ≤ s.config.keyMax.toNat
  · have ha : s.Accepts key := ⟨hc, hm, hlen⟩
    have ha' := hsame.accepts ha
    by_cases h : s.holds key
    · exact alike (exec_qry_of_holds ha h) (exec_qry_of_holds ha' (hsame.holds_iff.2 h))
    · exact alike (exec_qry_of_not_holds ha h) (exec_qry_of_not_holds ha' (mt hsame.holds_iff.1 h))
  · have hlong : s.config.keyMax.toNat < key.length := Nat.lt_of_not_le hlen
    exact alike (execQry_cap rfl hc hlong) (execQry_cap rfl (hsame.cfgd.trans hc) (by rwa [hsame.config]))

/-- The two probes of `"c"` in a filter of 8 bits are those of `"b"` (R107). -/
theorem probes_c_subset_probes_b : probes [0x63] 8 2 ⊆ probes [0x62] 8 2 := by decide

/-- Settles O49: `ADD "b"` sets the probes of `"c"` too. -/
theorem falsePositivesHappen : Obligations.FalsePositivesHappen := by
  intro s hM hK hlen
  obtain ⟨c, hc, hcfg⟩ := exec_cfg_configured (m := 8) (k := 2) (by decide) hM (by decide) hK
  have accepts : ∀ x : Byte, c.Accepts [x] := fun _ => hcfg.accepts (by decide) hlen
  obtain ⟨sa, hsa, ha⟩ := exec_add_added (accepts 0x61)
  obtain ⟨sb, hsb, hb⟩ := exec_add_added (ha.accepts (accepts 0x62))
  have hholds : sb.holds [0x63] :=
    hb.holds_of_subset (by rw [ha.m, ha.k, hcfg.m, hcfg.k]; exact probes_c_subset_probes_b)
  have hqry := exec_qry_of_holds (hb.accepts (ha.accepts (accepts 0x63))) hholds
  exact ⟨_, by rw [execAll_cons hc, execAll_cons hsa, execAll_cons hsb, execAll_cons hqry]; rfl, rfl⟩

end Sys2Proof.Machine
end

section
/-! PROOFS of the family `43_system_and_observation.md`: each outcome of a command is the law of its case in
`Sys2Proof/Laws/Exec.lean`, an answer or a refusal; `STAT` adds the number that each selector's register stands for. -/

namespace Sys2Proof.Machine

/-! ## The registers `STAT` reads (R14 to R20, R111) -/

section Registers

variable {s : State} {sel : BitVec 32}

theorem exists_statRead_of_le (h : sel.toNat ≤ 7) : ∃ v, statRead sel s = some v :=
  Option.ne_none_iff_exists'.1 fun hnone => Nat.not_lt.2 h (statRead_eq_none.1 hnone)

/-- Two readings at one selector are one value. -/
theorem statRead_unique {n : BitVec 32} {v w : Word} (hv : statRead sel s = some v) (hw : statRead n s = some w)
    (h : sel = n) : v = w :=
  Option.some.inj (hv.symm.trans (h ▸ hw))

theorem statRead_id : statRead 0 s = some 0x424C4D4600000001 := rfl
theorem statRead_status : statRead 1 s = some (statusWord s.lasterr s.cfgd) := rfl
theorem statRead_m : statRead 2 s = some s.m := rfl
theorem statRead_k : statRead 3 s = some (s.k.zeroExtend 64) := rfl
theorem statRead_nwords : statRead 4 s = some (BitVec.ofNat 64 s.nwords) := rfl
theorem statRead_mMax : statRead 5 s = some s.config.mMax := rfl
theorem statRead_kMax : statRead 6 s = some (s.config.kMax.zeroExtend 64) := rfl
theorem statRead_keyMax : statRead 7 s = some (s.config.keyMax.zeroExtend 64) := rfl

end Registers

/-- `STATUS` as a number: `LASTERR` from bit 8 on, `CFGD` in bit 0 (R17). -/
theorem statusWord_toNat (lasterr : BitVec 8) (cfgd : Bool) :
    (statusWord lasterr cfgd).toNat = 256 * lasterr.toNat + (if cfgd then 1 else 0) := by
  have hhigh : (0#48 ++ lasterr ++ 0#7).toNat = 128 * lasterr.toNat := by
    rw [BitVec.toNat_append, BitVec.toNat_append]
    simp [Nat.shiftLeft_eq, Nat.mul_comm]
  have hflag : (BitVec.ofBool cfgd).toNat = if cfgd then 1 else 0 := by cases cfgd <;> rfl
  rw [statusWord, BitVec.toNat_append, ← Nat.shiftLeft_add_eq_or_of_lt (BitVec.ofBool cfgd).isLt, hhigh, hflag,
    Nat.shiftLeft_eq]
  omega

/-- `NWORDS` fits in the register that reads it (R20). -/
theorem State.ofNat_nwords_toNat (s : State) : (BitVec.ofNat 64 s.nwords).toNat = (s.m.toNat + 63) / 64 :=
  Nat.mod_eq_of_lt s.nwords_lt

/-! ## The statements -/

/-- Settles O4: a selector up to 7 has a register, and its value is read off the register map. -/
theorem statReadsTheRegisterMap : Obligations.StatReadsTheRegisterMap := by
  intro rsv sel s
  refine ⟨fun ⟨hrsv, hsel⟩ => ?answered, fun h => ?refused⟩
  case answered =>
    obtain ⟨v, hv⟩ := exists_statRead_of_le (s := s) hsel
    refine ⟨_, v, execStat_ok hrsv hv, s.answered_ok .., s.sameFilter_respond .., statRead_unique hv statRead_id,
      fun h => ?status, statRead_unique hv statRead_m, fun h => ?k, fun h => ?nwords,
      statRead_unique hv statRead_mMax, fun h => ?kMax, fun h => ?keyMax⟩
    case status => rw [statRead_unique hv statRead_status h, statusWord_toNat]
    case k => rw [statRead_unique hv statRead_k h, BitVec.toNat_setWidth_of_le (by decide)]
    case nwords => rw [statRead_unique hv statRead_nwords h, s.ofNat_nwords_toNat]
    case kMax => rw [statRead_unique hv statRead_kMax h, BitVec.toNat_setWidth_of_le (by decide)]
    case keyMax => rw [statRead_unique hv statRead_keyMax h, BitVec.toNat_setWidth_of_le (by decide)]
  case refused =>
    by_cases hrsv : rsv = 0
    · exact refusedWith_of_eq .illegal (by decide) (execStat_sel hrsv (h.resolve_left (not_not_intro hrsv)))
    · exact refusedWith_of_eq .illegal (by decide) (execStat_rsv hrsv)

/-- Settles O5: the word answered is the hash, which is R91 over the naturals. -/
theorem hashAnswersTheHash : Obligations.HashAnswersTheHash := by
  intro rsv seed key s
  refine ⟨fun ⟨hrsv, hlen⟩ => ?answered, fun h => ?illegal, fun ⟨hrsv, hlen⟩ => ?cap⟩
  case answered =>
    exact ⟨_, _, execHash_ok hrsv hlen, s.answered_ok .., s.sameFilter_respond .., hpHash_toNat key seed⟩
  case illegal => exact refusedWith_of_eq .illegal (by decide) (execHash_rsv h)
  case cap => exact refusedWith_of_eq .cap (by decide) (execHash_cap hrsv hlen)

/-- Settles O6: the bit at the place R32 gives it, after the checks in their order. -/
theorem bgetAnswersOneBit : Obligations.BgetAnswersOneBit := by
  intro rsv arg pos s
  refine ⟨fun ⟨hrsv, harg, hc, hp⟩ => ?answered, fun h => ?illegal, fun ⟨hrsv, harg, hc⟩ => ?nocfg,
    fun ⟨hrsv, harg, hc, hp⟩ => ?range⟩
  case answered => exact ⟨_, execBget_ok hrsv harg hc hp, s.sameFilter_respond .., s.answered_ok ..⟩
  case illegal => exact refusedWith_of_eq .illegal (by decide) (execBget_illegal h)
  case nocfg => exact refusedWith_of_eq .nocfg (by decide) (execBget_nocfg hrsv harg hc)
  case range => exact refusedWith_of_eq .range (by decide) (execBget_range hrsv harg hc hp)

/-- Settles O7: the word at the index asked for, after the checks in their order. -/
theorem rdwAnswersOneWord : Obligations.RdwAnswersOneWord := by
  intro rsv arg idx s
  refine ⟨fun ⟨hrsv, harg, hc, hi⟩ => ?answered, fun h => ?illegal, fun ⟨hrsv, harg, hc⟩ => ?nocfg,
    fun ⟨hrsv, harg, hc, hi⟩ => ?range⟩
  case answered => exact ⟨_, execRdw_ok hrsv harg hc hi, s.sameFilter_respond .., s.answered_ok ..⟩
  case illegal => exact refusedWith_of_eq .illegal (by decide) (execRdw_illegal h)
  case nocfg => exact refusedWith_of_eq .nocfg (by decide) (execRdw_nocfg hrsv harg hc)
  case range => exact refusedWith_of_eq .range (by decide) (execRdw_range hrsv harg hc hi)

/-- Settles O3: the one check passes or fails. -/
theorem nopOnlyAnswers : Obligations.NopOnlyAnswers := by
  intro rsv arg s
  refine ⟨fun ⟨hrsv, harg⟩ => ?answered, fun h => ?illegal⟩
  case answered => exact ⟨_, execNop_ok hrsv harg, s.answered_ok .., s.sameFilter_respond ..⟩
  case illegal => exact refusedWith_of_eq .illegal (by decide) (execNop_illegal h)

end Sys2Proof.Machine
end

section
/-! PROOFS of the family `60_exceptions.md`: the two ways a command can go wrong, the error response of R128, whose code the
checks of R127 give in their order, and the fatal fault of R126; and the idle block, which can do neither. -/

namespace Sys2Proof.Machine

/-! ## The fatal fault and its stop (R85, R126) -/

theorem State.posInRange_eq_false_iff (s : State) (pos : Word) :
    s.posInRange pos = false ↔ s.cfgd = false ∨ s.m.toNat ≤ pos.toNat := by
  rw [State.posInRange, Bool.and_eq_false_iff, decide_eq_false_iff_not, not_lt]

theorem State.idxInRange_eq_false_iff (s : State) (idx : Word) :
    s.idxInRange idx = false ↔ s.cfgd = false ∨ s.nwords ≤ idx.toNat := by
  rw [State.idxInRange, Bool.and_eq_false_iff, decide_eq_false_iff_not, not_lt]

/-- In the fatal state the block shows `fatal_o` alone and takes nothing (R126, R51). -/
theorem State.outputs_of_fatal {s : State} (hrst : s.rstN = true) (hfatal : s.fatal = true) :
    s.fatalO = true ∧ s.cmdReady = false ∧ s.rspValid = false := by
  simp [State.fatalO, State.cmdReady, State.rspValid, hrst, hfatal]

/-- Settles O17: each request with its operand out of range ends in the one fault state, in which the block stands until
reset; a command reaches it in no state of the invariant (R105). -/
theorem outOfRangeRequestIsFatal : Obligations.OutOfRangeRequestIsFatal := by
  refine ⟨fun i x s hrange hrst => ?request, fun i s t hi hinv hfatal h => ?command⟩
  case request =>
    have hexec : exec i s = .next s.bitRangeFault := by
      rcases hrange with ⟨rfl | rfl, hpos⟩ | ⟨rfl, hidx⟩
      · exact execBsGet_fatal ((s.posInRange_eq_false_iff x).2 hpos)
      · exact execBsSet_fatal ((s.posInRange_eq_false_iff x).2 hpos)
      · exact execBsRdw_fatal ((s.idxInRange_eq_false_iff x).2 hidx)
    obtain ⟨hfatalO, hcmdReady, hrspValid⟩ := State.outputs_of_fatal (s := s.bitRangeFault) hrst rfl
    exact ⟨_, hexec, rfl, hfatalO, hcmdReady, hrspValid, step_fatal hrst rfl, _, step_reset rfl, rfl⟩
  case command => exact (exec_command_fatal hi hinv.one_le_m h).trans hfatal

/-! ## The first check that fails gives the code (R127) -/

section Checks

variable {s : State} {o : BitVec 8} {rest : List (Bool × BitVec 8)}

/-- The outcome is an answer to a command with these `OPC` and `CODE` bytes (R60). -/
def AnswersWith (s : State) (o code : BitVec 8) (e : Host.Outcome State Fault Refusal) : Prop :=
  ∃ t v, e = .next t ∧ s.answered t o code v

theorem answersWith_ok (s : State) (o : BitVec 8) (v : Word) : AnswersWith s o 0 (.next (s.respond o .ok v)) :=
  ⟨_, v, rfl, s.answered_ok o v⟩

theorem answersWith_error (s : State) (o : BitVec 8) {c : Code} (hc : c ≠ .ok) :
    AnswersWith s o (codeByte c) (.next (s.error o c)) := by
  obtain ⟨hanswered, -⟩ := s.refusedWith_error o hc
  exact ⟨_, 0, rfl, hanswered⟩

/-- One check of a meaning against one entry of the list: a failed check is answered with its code, and a passed one leaves
the rest of the meaning to the rest of the list. -/
theorem answersWith_check {p : Prop} [Decidable p] {ok : Bool} {c : Code} {e : Host.Outcome State Fault Refusal}
    (hp : ok = true ↔ ¬ p) (hc : c ≠ .ok) (hpast : ok = true → AnswersWith s o (firstFailing rest) e) :
    AnswersWith s o (firstFailing ((ok, codeByte c) :: rest)) (if p then .next (s.error o c) else e) := by
  cases ok with
  | true => rw [if_neg (hp.1 rfl)]; exact hpast rfl
  | false => rw [if_pos (by simpa using hp)]; exact answersWith_error s o hc

/-! ### The entries of the list, each against the condition its meaning tests -/

theorem rsvOk_iff (rsv : BitVec 24) : (rsv == 0) = true ↔ ¬ rsv ≠ 0 := by simp

theorem rsvArgOk_iff (rsv : BitVec 24) (arg : BitVec 32) :
    (rsv == 0 && arg == 0) = true ↔ ¬ (rsv ≠ 0 ∨ arg ≠ 0) := by simp

theorem cfgdOk_iff (s : State) : s.cfgd = true ↔ ¬ s.cfgd = false := by simp

theorem keyOk_iff (s : State) (key : List Byte) :
    decide (key.length ≤ s.config.keyMax.toNat) = true ↔ ¬ s.config.keyMax.toNat < key.length := by simp

/-! ### The commands, check by check -/

theorem execNop_firstFailing (rsv : BitVec 24) (arg : BitVec 32) :
    AnswersWith s 0x00 (firstFailing (checks s (.nop rsv arg))) (execNop rsv arg s) :=
  answersWith_check (rsvArgOk_iff rsv arg) (c := .illegal) nofun fun _ => answersWith_ok ..

theorem execCfg_firstFailing (rsv : BitVec 24) (m : BitVec 64) (k : BitVec 32) :
    AnswersWith s 0x01 (firstFailing (checks s (.cfg rsv m k))) (execCfg rsv m k s) :=
  answersWith_check (rsvOk_iff rsv) (c := .illegal) nofun fun _ =>
  answersWith_check (by simp) (c := .cfg) nofun fun _ =>
  answersWith_check (by simp [BitVec.lt_def]) (c := .cap) nofun fun _ =>
  ⟨_, 0, rfl, s.answered_ok 0x01 0⟩

theorem execHash_firstFailing (rsv : BitVec 24) (seed : BitVec 64) (key : List Byte) :
    AnswersWith s 0x04 (firstFailing (checks s (.hash rsv seed key))) (execHash rsv seed key s) :=
  answersWith_check (rsvOk_iff rsv) (c := .illegal) nofun fun _ =>
  answersWith_check (keyOk_iff s key) (c := .cap) nofun fun _ =>
  answersWith_ok ..

theorem execBget_firstFailing (rsv : BitVec 24) (arg : BitVec 32) (pos : BitVec 64) :
    AnswersWith s 0x05 (firstFailing (checks s (.bget rsv arg pos))) (execBget rsv arg pos s) :=
  answersWith_check (rsvArgOk_iff rsv arg) (c := .illegal) nofun fun _ =>
  answersWith_check (cfgdOk_iff s) (c := .nocfg) nofun fun hc =>
  answersWith_check (by simp [BitVec.le_def]) (c := .range) nofun fun hpos => by
    rw [bsGet_of_inRange ((s.posInRange_iff pos).2 ⟨hc, of_decide_eq_true hpos⟩)]
    exact answersWith_ok ..

theorem execRdw_firstFailing (rsv : BitVec 24) (arg : BitVec 32) (idx : BitVec 64) :
    AnswersWith s 0x06 (firstFailing (checks s (.rdw rsv arg idx))) (execRdw rsv arg idx s) :=
  answersWith_check (rsvArgOk_iff rsv arg) (c := .illegal) nofun fun _ =>
  answersWith_check (cfgdOk_iff s) (c := .nocfg) nofun fun hc =>
  answersWith_check (by simp [State.nwords, wordCount]) (c := .range) nofun fun hidx => by
    rw [bsRdw_of_inRange ((s.idxInRange_iff idx).2 ⟨hc, of_decide_eq_true hidx⟩)]
    exact answersWith_ok ..

theorem execStat_illegal {rsv : BitVec 24} {sel : BitVec 32} (h : rsv ≠ 0 ∨ 7 < sel.toNat) :
    execStat rsv sel s = .next (s.error 0x07 .illegal) := by
  by_cases hrsv : rsv = 0
  · exact execStat_sel hrsv (h.resolve_left (not_not_intro hrsv))
  · exact execStat_rsv hrsv

/-- The one check of `STAT` is made in two places: `RSV` first, then the selector, by the register map (R111). -/
theorem execStat_firstFailing (rsv : BitVec 24) (sel : BitVec 32) :
    AnswersWith s 0x07 (firstFailing (checks s (.stat rsv sel))) (execStat rsv sel s) := by
  by_cases h : rsv = 0 ∧ sel.toNat ≤ 7
  · obtain ⟨hrsv, hsel⟩ := h
    obtain ⟨v, hv⟩ := exists_statRead_of_le (s := s) hsel
    have hpasses : checks s (.stat rsv sel) = [(true, 1)] := by simp [checks, hrsv, hsel]
    rw [execStat_ok hrsv hv, hpasses]
    exact answersWith_ok s 0x07 v
  · have hfails : checks s (.stat rsv sel) = [(false, 1)] := by simpa [checks] using h
    rw [execStat_illegal (by rwa [not_and_or, not_le] at h), hfails]
    exact answersWith_error s 0x07 (c := .illegal) nofun

section Filter

variable (hone : s.cfgd = true → 1 ≤ s.m.toNat)

include hone

theorem execAdd_firstFailing (rsv : BitVec 24) (key : List Byte) :
    AnswersWith s 0x02 (firstFailing (checks s (.add rsv key))) (execAdd rsv key s) :=
  answersWith_check (rsvOk_iff rsv) (c := .illegal) nofun fun _ =>
  answersWith_check (cfgdOk_iff s) (c := .nocfg) nofun fun hc =>
  answersWith_check (keyOk_iff s key) (c := .cap) nofun fun _ => by
    obtain ⟨u, hu⟩ := setAll_completes (ps := probes key s.m s.k) hc
      fun p hp => probes_lt (ne_zero_of_one_le (hone hc)) hp
    obtain ⟨bits, rfl, -⟩ := setAll_done hu
    rw [hu]
    exact ⟨_, 0, rfl, s.answered_ok 0x02 0⟩

theorem execQry_firstFailing (rsv : BitVec 24) (key : List Byte) :
    AnswersWith s 0x03 (firstFailing (checks s (.qry rsv key))) (execQry rsv key s) :=
  answersWith_check (rsvOk_iff rsv) (c := .illegal) nofun fun _ =>
  answersWith_check (cfgdOk_iff s) (c := .nocfg) nofun fun hc =>
  answersWith_check (keyOk_iff s key) (c := .cap) nofun fun _ => by
    rw [getAll_eq hc fun p hp => probes_lt (ne_zero_of_one_le (hone hc)) hp]
    exact answersWith_ok ..

/-- With a filter of at least one bit, every command completes with the code of its first failing check (R127, R105). -/
theorem exec_firstFailing : ∀ {i : Instr}, i.isCommand = true →
    AnswersWith s i.opcByte (firstFailing (checks s i)) (exec i s)
  | .nop rsv arg, _ => execNop_firstFailing rsv arg
  | .cfg rsv m k, _ => execCfg_firstFailing rsv m k
  | .add rsv key, _ => execAdd_firstFailing hone rsv key
  | .qry rsv key, _ => execQry_firstFailing hone rsv key
  | .hash rsv seed key, _ => execHash_firstFailing rsv seed key
  | .bget rsv arg pos, _ => execBget_firstFailing rsv arg pos
  | .rdw rsv arg idx, _ => execRdw_firstFailing rsv arg idx
  | .stat rsv sel, _ => execStat_firstFailing rsv sel

end Filter

end Checks

/-- Settles O34: each meaning makes its checks in the order of the list; before them, an unassigned opcode is a frame of one
beat and refused. -/
theorem firstFailingCheckGivesTheCode : Obligations.FirstFailingCheckGivesTheCode :=
  ⟨fun _ rest s h8 => ⟨decodeBeats_of_unassigned h8 rest, s.refusedWith_error _ (c := .illegal) nofun⟩,
    fun _ _ hi hone => exec_firstFailing hone hi⟩

/-! ## An error has no effect but `LASTERR` (R128) -/

/-- A response with an error code is the taking of that error: its value is not sent (R128). -/
theorem State.respond_eq_error {c : Code} (hc : c ≠ .ok) (s : State) (o : BitVec 8) (v : Word) :
    s.respond o c v = s.error o c := by
  simp [State.error, State.respond, hc]

/-- What a command can leave on the response port: an error, taken with no other effect, an `OK` response, or, with the fatal
fault, what stood there before. -/
theorem exec_command_rsp {i : Instr} {s t : State} (hi : i.isCommand = true) (h : exec i s = .next t) :
    (∃ o c, c ≠ .ok ∧ t = s.error o c) ∨ (∃ o v, t.rsp = [rsp0 o .ok, v]) ∨ t.rsp = s.rsp := by
  rcases exec_cases h with ⟨-, o, c, v, rfl⟩ | ⟨m, k, -, -, -, -, -, rfl⟩ | ⟨key, u, -, -, -, -, rfl⟩ |
    ⟨key, u, -, -, hu, rfl⟩ | ⟨key, -, -, -, rfl⟩ | ⟨r, hm, -⟩ | ⟨hm, -⟩ | ⟨pos, rfl, -⟩ | ⟨n, rfl, -⟩ | ⟨v, hm, -⟩
  · by_cases hc : c = .ok
    · exact .inr (.inl ⟨o, v, by rw [hc]; rfl⟩)
    · exact .inl ⟨o, c, hc, s.respond_eq_error hc o v⟩
  · exact .inr (.inl ⟨_, _, rfl⟩)
  · exact .inr (.inl ⟨_, _, rfl⟩)
  · obtain ⟨bits, rfl, -⟩ := setAll_fatal hu
    exact .inr (.inr rfl)
  · exact .inr (.inr rfl)
  · cases hi.symm.trans hm
  · cases hi.symm.trans hm
  · cases hi
  · cases hi
  · cases hi.symm.trans hm

/-- Settles O35: the response names its code, so one that is no `OK` is an error, and that is a refusal. -/
theorem errorsHaveNoEffect : Obligations.ErrorsHaveNoEffect := by
  intro i s t opc code v hi hnone h hrsp hcode
  rcases exec_command_rsp hi h with ⟨o, c, hc, rfl⟩ | ⟨o, w, hok⟩ | hsame
  · obtain ⟨rfl, rfl⟩ := rsp0_inj (List.cons.inj hrsp).1
    exact s.refusedWith_error o hc
  · obtain ⟨-, hzero⟩ := rsp0_inj (List.cons.inj (hrsp.symm.trans hok)).1
    exact absurd hzero hcode
  · rw [hsame, hnone] at hrsp
    cases hrsp

/-! ## The idle block (R132, R158) -/

/-- Settles O32: no beat is held or offered, so the step waits for the first beat of a frame and takes none. -/
theorem idleBlockHoldsItsState : Obligations.IdleBlockHoldsItsState := by
  intro s h
  simp only [State.runEnded, Bool.and_eq_true, Bool.not_eq_true', List.isEmpty_iff, Option.isNone_iff_eq_none] at h
  obtain ⟨⟨⟨⟨⟨⟨hrst, hfatal⟩, hcmd⟩, hrx⟩, hrsp⟩, hbs⟩, hhp⟩ := h
  have hdec : decodeBeats (s.rx ++ s.cmd) = .incomplete := by rw [hrx, hcmd]; rfl
  have haccept : s.acceptBeats = s := by
    rw [State.acceptBeats, hcmd, List.append_nil, ← hcmd]
  refine ⟨by rw [step_incomplete hrst hfatal hbs hhp hrsp hdec, haccept], ?_⟩
  simp [State.cmdReady, State.rspValid, State.fatalO, hrst, hfatal, hrsp, hbs, hhp]

end Sys2Proof.Machine
end

section
/-! PROOFS of the family `70_reset_and_hazards.md`: reset, the frame that is not whole, the response that goes before the next
command, and the run of a stream of commands, which is made of the last two. -/

namespace Sys2Proof.Machine

/-! ## Reset (R140) -/

/-- Reset holds every output at 0, whatever else the block is doing (R140). -/
theorem State.outputs_of_reset {s : State} (hrst : s.rstN = false) :
    s.cmdReady = false ∧ s.rspValid = false ∧ s.fatalO = false := by
  simp [State.cmdReady, State.rspValid, State.fatalO, hrst]

/-- Settles O2: `rst_n` forces the outputs, and the step's next state is `applyReset`, field by field. -/
theorem resetPinDropsEverything : Obligations.ResetPinDropsEverything := by
  intro s hrst
  obtain ⟨hcmdReady, hrspValid, hfatalO⟩ := State.outputs_of_reset hrst
  exact ⟨hcmdReady, hrspValid, hfatalO, _, step_reset hrst, rfl, rfl, rfl, rfl, rfl, rfl, rfl, rfl, rfl, rfl, rfl,
    fun _ => rfl, rfl, hrst, rfl, rfl, rfl⟩

/-! ## Beats and responses at a block that serves its ports (R152, R154) -/

theorem State.transferBeat_of_ready {s : State} {b : Beat} {bs : List Beat} (hready : s.rspReady = true)
    (hrsp : s.rsp = b :: bs) : s.transferBeat = { s with rsp := bs, sent := s.sent ++ [b] } := by
  rw [State.transferBeat, if_pos hready, hrsp]; rfl

theorem State.transferBeat_of_not_ready {s : State} (hready : s.rspReady = false) : s.transferBeat = s :=
  if_neg (by simp [hready])

/-- With nothing offered there is nothing to take. -/
theorem State.acceptBeats_of_nothing_offered {s : State} (hcmd : s.cmd = []) : s.acceptBeats = s := by
  rw [State.acceptBeats, hcmd, List.append_nil, ← hcmd]

/-- While a response waits, its first beat is shown and no command beat is taken (R51, R154). -/
theorem State.outputs_of_response {s : State} {b : Beat} {bs : List Beat} (hrst : s.rstN = true)
    (hfatal : s.fatal = false) (hrsp : s.rsp = b :: bs) :
    s.cmdReady = false ∧ s.rspValid = true ∧ s.rspData = some b := by
  simp [State.cmdReady, State.rspData, State.rspValid, hrst, hfatal, hrsp]

section Serving

variable {s : State} (hrst : s.rstN = true) (hfatal : s.fatal = false) (hbs : s.bsReq = none) (hhp : s.hpReq = none)

include hrst hfatal hbs hhp

/-- Between two responses the block is ready and shows nothing, inside a frame or not (R51, R132, R152). -/
theorem State.outputs_of_no_response (hrsp : s.rsp = []) :
    s.cmdReady = true ∧ s.rspValid = false ∧ s.fatalO = false := by
  simp [State.cmdReady, State.rspValid, State.fatalO, hrst, hfatal, hbs, hhp, hrsp]

/-- A step reads the beats held and the beats offered as one stream: where the one ends and the other begins does not
matter (R57, R152). -/
theorem step_eq_of_same_beats (hrsp : s.rsp = []) {rx cmd : List Beat} (hbeats : rx ++ cmd = s.rx ++ s.cmd) :
    step { s with rx := rx, cmd := cmd } = step s := by
  cases hdec : decodeBeats (s.rx ++ s.cmd) with
  | instr i rest =>
    calc step { s with rx := rx, cmd := cmd }
        = exec i (s.takeFrame rest) := step_command hrst hfatal hbs hhp hrsp (hbeats ▸ hdec)
      _ = step s := (step_command hrst hfatal hbs hhp hrsp hdec).symm
  | unassigned opc rest =>
    calc step { s with rx := rx, cmd := cmd }
        = .next ((s.takeFrame rest).respond opc .illegal 0) :=
          step_unassigned hrst hfatal hbs hhp hrsp (hbeats ▸ hdec)
      _ = step s := (step_unassigned hrst hfatal hbs hhp hrsp hdec).symm
  | incomplete =>
    calc step { s with rx := rx, cmd := cmd }
        = .next { s with rx := rx ++ cmd, cmd := [] } := step_incomplete hrst hfatal hbs hhp hrsp (hbeats ▸ hdec)
      _ = .next s.acceptBeats := by rw [hbeats]; rfl
      _ = step s := (step_incomplete hrst hfatal hbs hhp hrsp hdec).symm

theorem step_transfers_beat (hready : s.rspReady = true) {b : Beat} {bs : List Beat} (hrsp : s.rsp = b :: bs) :
    step s = .next { s with rsp := bs, sent := s.sent ++ [b] } := by
  rw [step_response hrst hfatal hbs hhp hrsp, State.transferBeat_of_ready hready hrsp]

end Serving

/-- Settles O31: the beats held and offered are one stream, so nothing that happens inside a frame depends on how many
steps its beats took to come. -/
theorem incompleteFrameWaits : Obligations.IncompleteFrameWaits := by
  intro s more hrst hfatal hbs hhp hrsp hdec
  obtain ⟨hcmdReady, hrspValid, hfatalO⟩ :=
    State.outputs_of_no_response (s := s.acceptBeats) hrst hfatal hbs hhp hrsp
  refine ⟨s.acceptBeats, step_incomplete hrst hfatal hbs hhp hrsp hdec, rfl, hcmdReady, hrspValid, hfatalO, ?waits,
    ⟨_, step_reset rfl, rfl⟩, ?completed⟩
  case waits =>
    have hheld : decodeBeats (s.acceptBeats.rx ++ s.acceptBeats.cmd) = .incomplete := by simpa using hdec
    rw [step_incomplete (s := s.acceptBeats) hrst hfatal hbs hhp hrsp hheld, State.acceptBeats_of_nothing_offered rfl]
  case completed =>
    exact step_eq_of_same_beats (s := { s with cmd := s.cmd ++ more }) hrst hfatal hbs hhp hrsp
      (List.append_assoc ..)

/-- Settles O33: a waiting response holds `cmd_ready` at 0, and the step is the transfer of its first beat or a wait. -/
theorem responseGoesBeforeTheNextCommand : Obligations.ResponseGoesBeforeTheNextCommand := by
  intro s b bs hrst hfatal hbs hhp hrsp
  obtain ⟨hcmdReady, hrspValid, hrspData⟩ := State.outputs_of_response hrst hfatal hrsp
  refine ⟨hcmdReady, hrspValid, hrspData, fun hready => step_transfers_beat hrst hfatal hbs hhp hready hrsp,
    fun hready => ?_⟩
  rw [step_response hrst hfatal hbs hhp hrsp, State.transferBeat_of_not_ready hready]

/-! ## A stream of commands (R158) -/

theorem stepN_succ {n : Nat} {s t : State} (h : step s = .next t) : stepN (n + 1) s = stepN n t := by
  rw [stepN, h]

theorem runCommands_cons {i : Instr} {is : List Instr} {s t : State} (h : exec i s = .next t) :
    runCommands (i :: is) s = runCommands is t.deliver := by
  rw [runCommands, h]

theorem exists_encode_eq_cmd {i : Instr} (hi : i.isCommand = true) : ∃ beats, encode i = .cmd beats := by
  cases i with
  | nop | cfg | add | qry | hash | bget | rdw | stat => exact ⟨_, rfl⟩
  | bsGet | bsSet | bsRdw | bsClear | hpHash | hpProbe => cases hi

theorem frames_cons {i : Instr} {beats : List Beat} (h : encode i = .cmd beats) (is : List Instr) :
    frames (i :: is) = beats ++ frames is := by
  rw [frames, h]

theorem State.runEnded_iff {s : State} :
    s.runEnded = true ↔ s.rstN = true ∧ s.fatal = false ∧ s.cmd = [] ∧ s.rx = [] ∧ s.rsp = [] ∧ s.bsReq = none ∧
      s.hpReq = none := by
  simp [State.runEnded, and_assoc]

/-- Transferring the whole response keeps the invariant (R60, R154). -/
theorem State.Inv.deliver {s : State} (h : s.Inv) : s.deliver.Inv :=
  ⟨h.config, h.geometry, h.bits, h.slack, h.lasterr, h.ports.1, fun hne => absurd rfl hne, Nat.zero_le 2⟩

/-- A ready host takes a whole response in two steps (R60, R154). -/
theorem stepN_deliver {s : State} (hrst : s.rstN = true) (hfatal : s.fatal = false) (hbs : s.bsReq = none)
    (hhp : s.hpReq = none) (hready : s.rspReady = true) {r v : Beat} (hrsp : s.rsp = [r, v]) (n : Nat) :
    stepN (n + 2) s = stepN n s.deliver := by
  have hfirst := step_transfers_beat hrst hfatal hbs hhp hready hrsp
  have hsecond := step_transfers_beat (s := { s with rsp := [v], sent := s.sent ++ [r] }) hrst hfatal hbs hhp hready rfl
  rw [stepN_succ hfirst, stepN_succ hsecond, State.deliver, hrsp, List.append_assoc]
  rfl

/-- A command's frame in front of an idle block is taken whole and executed, whatever is offered after it (R50, R57). -/
theorem step_encoded_command {i : Instr} {beats : List Beat} {s : State} (hi : i.encodable = true)
    (henc : encode i = .cmd beats) (hended : s.runEnded = true) (rest : List Beat) :
    step { s with cmd := beats ++ rest } = exec i { s with cmd := rest } := by
  obtain ⟨hrst, hfatal, -, hrx, hrsp, hbs, hhp⟩ := State.runEnded_iff.1 hended
  have hdec : decodeBeats (s.rx ++ (beats ++ rest)) = .instr i rest := by
    rw [hrx]
    exact decodeBeats_encode_append hi henc rest
  calc step { s with cmd := beats ++ rest }
      = exec i (s.takeFrame rest) := step_command hrst hfatal hbs hhp hrsp hdec
    _ = exec i { s with cmd := rest } := by rw [State.takeFrame_of_idle hrx]

/-- What one command does to an idle block, its response transferred: the block is idle again, in a state of the
invariant, and the host has received two beats (R40, R60, R105). -/
theorem exec_deliver_idle {i : Instr} {s : State} (hi : i.isCommand = true) (h : s.Inv) (hended : s.runEnded = true) :
    ∃ t r v, exec i s = .next t ∧ t.rsp = [r, v] ∧ t.rspReady = s.rspReady ∧ t.sent = s.sent ∧ t.deliver.Inv ∧
      t.deliver.runEnded = true := by
  obtain ⟨hrst, hfatal, hcmd, hrx, -, hbs, hhp⟩ := State.runEnded_iff.1 hended
  obtain ⟨t, v, he, hrsp, -⟩ := exec_firstFailing h.one_le_m hi
  obtain ⟨hrx', hbs', hhp', hcmd', hsent, -, hrst', hready, -⟩ := exec_ports he
  have hfatal' := exec_command_fatal hi h.one_le_m he
  exact ⟨t, _, v, he, hrsp, hready, hsent, (h.exec_command hi hrx he).deliver,
    State.runEnded_iff.2 ⟨hrst'.trans hrst, hfatal'.trans hfatal, hcmd'.trans hcmd, hrx'.trans hrx, rfl, hbs'.trans hbs,
      hhp'.trans hhp⟩⟩

/-- One command of a stream: a step to execute it and two to transfer its response, with the rest of the stream still
offered (R40, R154). -/
theorem stepN_encoded_command {i : Instr} {beats : List Beat} {s t : State} (hi : i.isCommand = true)
    (hencodable : i.encodable = true) (henc : encode i = .cmd beats) (hended : s.runEnded = true)
    (he : exec i s = .next t) {r v : Beat} (hrsp : t.rsp = [r, v]) (hready : t.rspReady = true)
    (hended' : t.deliver.runEnded = true) (rest : List Beat) (n : Nat) :
    stepN (n + 3) { s with cmd := beats ++ rest } = stepN n { t.deliver with cmd := rest } := by
  obtain ⟨hrst, hfatal, -, -, -, hbs, hhp⟩ := State.runEnded_iff.1 hended'
  have hstep : step { s with cmd := beats ++ rest } = .next { t with cmd := rest } := by
    rw [step_encoded_command hencodable henc hended, exec_withCmd hi, he]; rfl
  rw [stepN_succ hstep]
  exact stepN_deliver (s := { t with cmd := rest }) hrst hfatal hbs hhp hready hrsp n

/-- Settles O50, by induction on the commands: each leaves an idle block in a state of the invariant for the next. -/
theorem commandStreamRunsToItsEnd : Obligations.CommandStreamRunsToItsEnd := by
  intro is
  induction is with
  | nil =>
    intro s _ _ hended _
    obtain ⟨-, -, hcmd, -⟩ := State.runEnded_iff.1 hended
    have hnothing : { s with cmd := [] } = s := by rw [← hcmd]
    exact ⟨s, congrArg Host.Outcome.next hnothing, rfl, hended, rfl⟩
  | cons i is ih =>
    intro s his h hended hready
    obtain ⟨hi, hencodable⟩ := his i List.mem_cons_self
    obtain ⟨beats, henc⟩ := exists_encode_eq_cmd hi
    obtain ⟨t, r, v, he, hrsp, hready', hsent, h', hended'⟩ := exec_deliver_idle hi h hended
    have hready' : t.rspReady = true := hready'.trans hready
    obtain ⟨u, hsteps, hrun, hended'', hcount⟩ :=
      ih t.deliver (fun j hj => his j (List.mem_cons_of_mem _ hj)) h' hended' hready'
    refine ⟨u, ?steps, (runCommands_cons he).trans hrun, hended'', ?count⟩
    case steps =>
      rw [frames_cons henc]
      exact (stepN_encoded_command hi hencodable henc hended he hrsp hready' hended' _ _).trans hsteps
    case count =>
      have hdelivered : t.deliver.sent.length = s.sent.length + 2 := by simp [State.deliver, hrsp, hsent]
      rw [hcount, hdelivered, List.length_cons]
      omega

end Sys2Proof.Machine
end
